-- ==== Sys2Proof/Word.lean ====
section
/-! DEFINITION. The word types of BISC: bytes, halves, 32-bit words (R3) and 8-bit register specifiers (R36, R41). -/

namespace Sys2Proof

/-- A byte of the code space (R24) or an opcode field (R36). -/
abbrev Byte := BitVec 8

/-- One 16-bit half of a register, as the multiplies read it (R55). -/
abbrev Half := BitVec 16

/-- A register value, an instruction word or a code address: 32 bits (R3, R4, R15). -/
abbrev Word := BitVec 32

/-- A register specifier: the unsigned 8-bit number of an operand field, 0 to 255 (R36, R41). -/
abbrev Reg := BitVec 8

end Sys2Proof
end

