-- ==== Sys2Proof/Config.lean ====
section
/-! DEFINITION. What is fixed for the machine: the parameters of 00_scope.md section 5 and the free values of R76.
ENTRY, END and CODE vary from run to run and are State. -/

namespace Sys2Proof

/-- How an inexact signed quotient is rounded: the three conventions R61 and R68 name. -/
inductive Rounding where
  /-- Toward zero; a non-zero remainder has the sign of the dividend. -/
  | towardZero
  /-- Toward minus infinity; a non-zero remainder has the sign of the divisor. -/
  | towardMinusInfinity
  /-- Euclidean; the remainder is never negative. -/
  | euclidean
  deriving DecidableEq, Repr

/-- What the OPEN parameters DIV_ZERO and DIV_OVERFLOW are set to (R62, R63, R76). -/
inductive CornerRule where
  /-- The spec's default: a model fault by name, no state change (R62, R63, R73). -/
  | modelFault
  /-- The instantiated form of R76: the instruction completes and writes a value, here a free one. -/
  | freeValue
  deriving DecidableEq, Repr

/-- NREG, the number of general registers: the spec's default (R10, decision D3). UNVERIFIED: log entry 1. -/
def Config.nreg : Nat := 256

/-- MUL_LOW_SIGNED: are MUL's 16-bit halves signed (R56, decision D18). UNVERIFIED: log entry 10. -/
def Config.mulLowSigned : Bool := false

/-- SDIV_ROUNDING (R61, decision D19). UNVERIFIED: log entry 11. -/
def Config.sdivRounding : Rounding := .towardZero

/-- DIV_ZERO: how the four divisions treat a zero divisor. DESIGN CHOICE: log entry 7. -/
def Config.divZeroRule : CornerRule := .freeValue

/-- DIV_OVERFLOW: how DIV treats -2^31 by -1. DESIGN CHOICE: log entry 8. -/
def Config.divOverflowRule : CornerRule := .freeValue

/-- `divZero(a)` of R76: what DIV writes for the dividend `a` and a zero divisor. A free value: log entry 7. -/
opaque Config.divZero : Word → Word

/-- `divuZero(a)` of R76: the same for DIVU. A free value: log entry 7. -/
opaque Config.divuZero : Word → Word

/-- `modZero(a)` of R76: the same for MOD. A free value: log entry 7. -/
opaque Config.modZero : Word → Word

/-- `moduZero(a)` of R76: the same for MODU. A free value: log entry 7. -/
opaque Config.moduZero : Word → Word

/-- DIV_OVERFLOW's constant of R76: what DIV writes for -2^31 by -1. A free value: log entry 8. -/
opaque Config.divOverflow : Word

end Sys2Proof
end

