-- ==== Sys2Proof/Syntax.lean ====
section
/-! DEFINITION. The nine arithmetic instructions (R2), one constructor per row of spec/opcode_table.json, each with
the three register operands of the T-Type format in the order rd, rs0, rs1 (R36, R46). -/

namespace Sys2Proof

/-- An instruction in scope (R2, R39). -/
inductive Instr where
  /-- ADD, opcode 0x0F (R52). -/
  | add (rd rs0 rs1 : Reg)
  /-- SUB, opcode 0x0E (R53). -/
  | sub (rd rs0 rs1 : Reg)
  /-- MUL, opcode 0x10 (R56). -/
  | mul (rd rs0 rs1 : Reg)
  /-- MULH, opcode 0x11 (R57). -/
  | mulh (rd rs0 rs1 : Reg)
  /-- MULHU, opcode 0x12 (R58). -/
  | mulhu (rd rs0 rs1 : Reg)
  /-- DIV, opcode 0x13 (R64). -/
  | div (rd rs0 rs1 : Reg)
  /-- DIVU, opcode 0x14 (R65). -/
  | divu (rd rs0 rs1 : Reg)
  /-- MOD, opcode 0x15 (R66). -/
  | mod (rd rs0 rs1 : Reg)
  /-- MODU, opcode 0x16 (R67). -/
  | modu (rd rs0 rs1 : Reg)
  deriving DecidableEq, Repr

/-- The destination register specifier (R36). -/
def Instr.rd : Instr → Reg
  | .add d _ _ | .sub d _ _ | .mul d _ _ | .mulh d _ _ | .mulhu d _ _
  | .div d _ _ | .divu d _ _ | .mod d _ _ | .modu d _ _ => d

/-- The first source register specifier (R36). -/
def Instr.rs0 : Instr → Reg
  | .add _ a _ | .sub _ a _ | .mul _ a _ | .mulh _ a _ | .mulhu _ a _
  | .div _ a _ | .divu _ a _ | .mod _ a _ | .modu _ a _ => a

/-- The second source register specifier (R36). -/
def Instr.rs1 : Instr → Reg
  | .add _ _ b | .sub _ _ b | .mul _ _ b | .mulh _ _ b | .mulhu _ _ b
  | .div _ _ b | .divu _ _ b | .mod _ _ b | .modu _ _ b => b

/-- The mnemonic, as the opcode table and R46 write it. -/
def Instr.mnemonic : Instr → String
  | .add _ _ _ => "ADD"
  | .sub _ _ _ => "SUB"
  | .mul _ _ _ => "MUL"
  | .mulh _ _ _ => "MULH"
  | .mulhu _ _ _ => "MULHU"
  | .div _ _ _ => "DIV"
  | .divu _ _ _ => "DIVU"
  | .mod _ _ _ => "MOD"
  | .modu _ _ _ => "MODU"

end Sys2Proof
end

