-- ==== Sys2Proof/Machine/State.lean ====
section
/-! DEFINITION. The state of the machine (10_state.md, 20_memory.md R24, 70_reset_and_hazards.md R84), the reasons a
step can stop (60_exceptions.md R73, R74), and the state after reset. -/

namespace Sys2Proof.Machine

/-- The program text CODE: (address, byte) pairs (R24). An address that is not listed holds no byte. -/
abbrev Memory := List Host.Cell

/-- The canonical form of CODE: addresses strictly rising, and every one a 32-bit address (R24). -/
abbrev Memory.wf (m : Memory) : Prop :=
  m.Pairwise (fun c d => c.1 < d.1) ∧ ∀ c ∈ m, c.1 < 2 ^ 32

/-- The state of the machine. There is no other state in the spec: no flags (R18), no control registers (R19), no
other register file (R20), no data memory (R21, R23), no hidden state (R22). UNVERIFIED: log entries 17 and 21. -/
structure State where
  /-- The general registers `x[n]`, one cell for each number a specifier can hold (R9, R10). -/
  regs : Vector Word 256
  /-- The launch's mark "unwritten" on each register (R14, R84). DESIGN CHOICE: log entry 3. -/
  unwritten : Vector Bool 256
  /-- The program counter, a byte address (R15). UNVERIFIED: log entry 14. -/
  pc : Word
  /-- The program text CODE (R24). DESIGN CHOICE: log entry 16. -/
  code : Memory
  /-- ENTRY, the first code address of the run (R24, R84). -/
  entry : Word
  /-- END, the address just past the program text (R24, R86). DESIGN CHOICE: log entry 15. -/
  codeEnd : Nat
  deriving DecidableEq, Repr

/-- The model faults of R73: the instruction is one of the nine, but the spec gives it no meaning on these operand
values. A faulted step changes no state. -/
inductive Fault where
  /-- Raised by any of the nine when rs0 or rs1 names a register the launch marked unwritten and nothing has written
  since (R14). After reset no register carries the mark (log entry 3). Safe. -/
  | unwrittenRegister (n : Reg)
  /-- The spec's default for a zero divisor (R62). Raised by DIV, DIVU, MOD and MODU only where `Config.divZeroRule`
  is `modelFault`; this machine's is `freeValue` (log entry 7), so it raises it never (R73). Safe. -/
  | divideByZero
  /-- The spec's default for -2^31 by -1 (R63). Raised by DIV only where `Config.divOverflowRule` is `modelFault`;
  this machine's is `freeValue` (log entry 8), so it raises it never (R73). Safe. -/
  | divideOverflow
  deriving DecidableEq, Repr

/-- The refusals of R74, and the end of a run. A refused step changes no state. -/
inductive Refusal where
  /-- Raised by an arm of exec whose instruction has no meaning yet: no arm of this machine. Safe. -/
  | notModelled (mnemonic : String)
  /-- Raised by fetch: the opcode is outside 0x0E .. 0x16, so the word belongs to the part of the manual that was not
  supplied (R43). Safe. -/
  | opcodeNotInScope (op : Byte)
  /-- Raised by fetch: a specifier is not below NREG (R42). At NREG = 256 it does not arise. Safe. -/
  | registerOutOfRange
  /-- Raised by fetch: pc is not a multiple of 4 (R27). Safe. -/
  | misalignedPc
  /-- Raised by fetch: the four bytes at pc are not all inside CODE (R28). Safe. -/
  | fetchOutsideCode
  /-- Raised by each of the nine at pc = 0xFFFFFFFC, where pc + 4 would be 2^32 (R17). Safe. -/
  | pcWrap
  /-- Raised by fetch at pc = END: the run is complete and there is no instruction to execute (R86; the outcome R87
  calls Done). Log entry 6. Safe. -/
  | runComplete
  deriving DecidableEq, Repr

/-- The machine right after reset. The spec gives no reset value for anything (R83, 10_state.md section 8): zero in
every register with no mark on it (DESIGN CHOICE: log entries 2 and 3), pc = ENTRY = END = 0 and no program text
(DESIGN CHOICE: log entry 4). -/
def State.reset : State :=
  { regs := Vector.replicate 256 0#32
    unwritten := Vector.replicate 256 false
    pc := 0#32
    code := []
    entry := 0#32
    codeEnd := 0 }

end Sys2Proof.Machine
end

