-- ==== Sys2Proof/Machine/Operands.lean ====
section
/-! DEFINITION. The readings of a bit vector and the integer operations of 00_scope.md section 6: unsigned, signed,
trunc, the halves of a register, and the quotient and remainder of each rounding convention. -/

namespace Sys2Proof.Machine

/-- `unsigned(v)`: the natural number a vector denotes, as an integer. -/
def unsigned {n : Nat} (v : BitVec n) : Int := v.toNat

/-- `signed(v)`: the integer a vector denotes in two's complement (R6). DEDUCED by the spec: log entry 23. -/
def signed {n : Nat} (v : BitVec n) : Int := v.toInt

/-- `trunc_32(z)`: the word whose unsigned value is z modulo 2^32. -/
def trunc32 (z : Int) : Word := BitVec.ofInt 32 z

/-- `v[15:0]`, the lower 16 bits (R5, R8). -/
def lowerHalf (v : Word) : Half := v.extractLsb' 0 16

/-- `v[31:16]`, the upper 16 bits (R5, R8). -/
def upperHalf (v : Word) : Half := v.extractLsb' 16 16

/-- `divT(a, b)`: the quotient rounded toward zero, sign(a) * sign(b) * floor(|a| / |b|). -/
def divT (a b : Int) : Int := a.sign * b.sign * ((a.natAbs / b.natAbs : Nat) : Int)

/-- `remT(a, b) = a - b * divT(a, b)`. -/
def remT (a b : Int) : Int := a - b * divT a b

/-- The quotient of a signed division under a rounding convention (R61, R68; log entry 11). -/
def quotientBy (r : Rounding) (a b : Int) : Int :=
  match r with
  | .towardZero => divT a b
  | .towardMinusInfinity => Int.fdiv a b
  | .euclidean => Int.ediv a b

/-- The remainder that goes with that quotient (R61, R69). -/
def remainderBy (r : Rounding) (a b : Int) : Int := a - b * quotientBy r a b

/-- `divU(a, b)`: floor(a / b) of non-negative a and positive b. -/
def divU (a b : Int) : Int := ((a.toNat / b.toNat : Nat) : Int)

/-- `remU(a, b) = a - b * floor(a / b)`. -/
def remU (a b : Int) : Int := a - b * divU a b

end Sys2Proof.Machine
end

