-- ==== Sys2Proof/Machine/Ops.lean ====
section
/-! DEFINITION. The named operations over CODE and the registers, and the steps common to the nine instructions
(R51). The spec defines no exception, trap or return from one (R71, R78, R79), so there is none to take here. -/

namespace Sys2Proof.Machine

/-- The byte of CODE at an address, if it holds one (R24). -/
def readByte : Memory → Nat → Option Byte
  | [], _ => none
  | (k, b) :: rest, a => if k = a then some b else readByte rest a

/-- Puts a byte at an address, keeping the addresses rising. -/
def writeByte : Memory → Nat → Byte → Memory
  | [], a, b => [(a, b)]
  | (k, c) :: rest, a, b =>
    if a < k then (a, b) :: (k, c) :: rest
    else if a = k then (a, b) :: rest
    else (k, c) :: writeByte rest a b

/-- `MemRead(addr, n)`: the n bytes from `a` up, the first in bits 7:0 (R26). -/
def memRead (m : Memory) : (a n : Nat) → Option (BitVec (8 * n))
  | _, 0 => some 0
  | a, n + 1 =>
    match readByte m a, memRead m (a + 1) n with
    | some b, some high => some (high ++ b)
    | _, _ => none

/-- The bytes of an 8n-bit value from `a` up, bits 7:0 first. -/
def writeBytes (m : Memory) (a : Nat) : (n : Nat) → BitVec (8 * n) → Memory
  | 0, _ => m
  | n + 1, v => writeBytes (writeByte m a (v.extractLsb' 0 8)) (a + 1) n (v.extractLsb' 8 (8 * n))

/-- `MemWrite(addr, n, v)` (R26): no answer where a byte would lie at or above 2^32, an address that does not exist
(R24). No instruction uses it; the host's placing of a word does. DESIGN CHOICE: log entry 18. -/
def memWrite (m : Memory) (a n : Nat) (v : BitVec (8 * n)) : Option Memory :=
  if a + n ≤ 2 ^ 32 then some (writeBytes m a n v) else none

/-- The value of `x[r]`; every register is ordinary, r0 included (R12). UNVERIFIED: log entry 19. -/
def State.reg (s : State) (r : Reg) : Word := s.regs[r.toNat]'r.isLt

/-- Does `x[r]` still carry the launch's mark "unwritten" (R14). -/
def State.isUnwritten (s : State) (r : Reg) : Bool := s.unwritten[r.toNat]'r.isLt

/-- Reads a source register; a register that carries the mark faults (R14). -/
def readReg (s : State) (r : Reg) : Except Fault Word :=
  if s.isUnwritten r then .error (.unwrittenRegister r) else .ok (s.reg r)

/-- `x[r] <- v`: the register holds `v` and carries no mark, whatever it held (R12, R14). -/
def writeReg (s : State) (r : Reg) (v : Word) : State :=
  { s with
    regs := s.regs.set r.toNat v r.isLt
    unwritten := s.unwritten.set r.toNat false r.isLt }

/-- `pc <- pc + 4` (R16). UNVERIFIED: log entry 14. -/
def advancePc (s : State) : State := { s with pc := s.pc + 4#32 }

/-- The address at which pc + 4 would be 2^32 (R17). -/
def lastWordAddress : Word := 0xFFFFFFFC#32

/-- Steps 2 to 5 of R51, shared by the nine: refuse at the last word of the address space (R17), read both sources,
rs0 first (R75), compute, and only then write rd (R7) and advance pc. Any overlap of the three registers is allowed, in the divisions
too (R70). UNVERIFIED: log entries 14 and 24. -/
def executeTType (compute : Word → Word → Except Fault Word) (rd rs0 rs1 : Reg) (s : State) :
    Host.Outcome State Fault Refusal :=
  if s.pc = lastWordAddress then .refused .pcWrap
  else
    match readReg s rs0 with
    | .error f => .fault f
    | .ok a =>
      match readReg s rs1 with
      | .error f => .fault f
      | .ok b =>
        match compute a b with
        | .error f => .fault f
        | .ok r => .next (advancePc (writeReg s rd r))

/-- What a division corner does under its rule: the spec's default fault (R62, R63) or the value of R76. -/
def cornerResult (rule : CornerRule) (f : Fault) (v : Word) : Except Fault Word :=
  match rule with
  | .modelFault => .error f
  | .freeValue => .ok v

end Sys2Proof.Machine
end

