-- ==== Sys2Proof/Machine/AddSub.lean ====
section
/-! DEFINITION. ADD and SUB (40_arith_add_sub.md). -/

namespace Sys2Proof.Machine

/-- The sum modulo 2^32 (R52). -/
def addResult (a b : Word) : Word := trunc32 (unsigned a + unsigned b)

/-- The difference, first source minus second, modulo 2^32 (R53). -/
def subResult (a b : Word) : Word := trunc32 (unsigned a - unsigned b)

/-- ADD (R52). -/
def execAdd (rd rs0 rs1 : Reg) (s : State) : Host.Outcome State Fault Refusal :=
  executeTType (fun a b => .ok (addResult a b)) rd rs0 rs1 s

/-- SUB (R53). -/
def execSub (rd rs0 rs1 : Reg) (s : State) : Host.Outcome State Fault Refusal :=
  executeTType (fun a b => .ok (subResult a b)) rd rs0 rs1 s

end Sys2Proof.Machine
end

