-- ==== Sys2Proof/Machine/Divide.lean ====
section
/-! DEFINITION. DIV, DIVU, MOD and MODU (42_arith_divide_modulo.md). rs0 is the dividend, rs1 the divisor (R60,
conflict C1; UNVERIFIED: log entry 12). A zero divisor (R62) and DIV's overflow pair (R63) go by the two corner rules of
Config, set here to the free values of R76 (DESIGN CHOICE: log entries 7 and 8). -/

namespace Sys2Proof.Machine

/-- The operands of the one signed division whose quotient does not fit: -2^31 by -1 (R63). -/
abbrev IsOverflowPair (a b : Word) : Prop := signed a = -(2 ^ 31) ∧ signed b = -1

/-- The signed quotient (R64), with the rounding convention and the two corner rules as parameters. -/
def divResult (rounding : Rounding) (zeroRule overflowRule : CornerRule) (a b : Word) : Except Fault Word :=
  if signed b = 0 then cornerResult zeroRule .divideByZero (Config.divZero a)
  else if IsOverflowPair a b then cornerResult overflowRule .divideOverflow Config.divOverflow
  else .ok (trunc32 (quotientBy rounding (signed a) (signed b)))

/-- The unsigned quotient (R65). -/
def divuResult (zeroRule : CornerRule) (a b : Word) : Except Fault Word :=
  if unsigned b = 0 then cornerResult zeroRule .divideByZero (Config.divuZero a)
  else .ok (trunc32 (divU (unsigned a) (unsigned b)))

/-- The signed remainder (R66); at DIV's overflow pair it is 0 (R63; UNVERIFIED: log entry 9). -/
def modResult (rounding : Rounding) (zeroRule : CornerRule) (a b : Word) : Except Fault Word :=
  if signed b = 0 then cornerResult zeroRule .divideByZero (Config.modZero a)
  else .ok (trunc32 (remainderBy rounding (signed a) (signed b)))

/-- The unsigned remainder (R67). -/
def moduResult (zeroRule : CornerRule) (a b : Word) : Except Fault Word :=
  if unsigned b = 0 then cornerResult zeroRule .divideByZero (Config.moduZero a)
  else .ok (trunc32 (remU (unsigned a) (unsigned b)))

/-- DIV (R64). -/
def execDiv (rd rs0 rs1 : Reg) (s : State) : Host.Outcome State Fault Refusal :=
  executeTType (divResult Config.sdivRounding Config.divZeroRule Config.divOverflowRule) rd rs0 rs1 s

/-- DIVU (R65). -/
def execDivu (rd rs0 rs1 : Reg) (s : State) : Host.Outcome State Fault Refusal :=
  executeTType (divuResult Config.divZeroRule) rd rs0 rs1 s

/-- MOD (R66). -/
def execMod (rd rs0 rs1 : Reg) (s : State) : Host.Outcome State Fault Refusal :=
  executeTType (modResult Config.sdivRounding Config.divZeroRule) rd rs0 rs1 s

/-- MODU (R67). -/
def execModu (rd rs0 rs1 : Reg) (s : State) : Host.Outcome State Fault Refusal :=
  executeTType (moduResult Config.divZeroRule) rd rs0 rs1 s

end Sys2Proof.Machine
end

