-- ==== Sys2Proof/Machine/Multiply.lean ====
section
/-! DEFINITION. MUL, MULH and MULHU (41_arith_multiply.md): the full 32-bit product of one 16-bit half of each source
(R55). -/

namespace Sys2Proof.Machine

/-- The product of two halves read as unsigned numbers (R56, R58). -/
def productUnsigned (a b : Half) : Word := trunc32 (unsigned a * unsigned b)

/-- The product of two halves read as signed numbers (R57). -/
def productSigned (a b : Half) : Word := trunc32 (signed a * signed b)

/-- MUL's product of the lower halves, under either setting of MUL_LOW_SIGNED (R56). -/
def mulResult (lowSigned : Bool) (a b : Word) : Word :=
  if lowSigned then productSigned (lowerHalf a) (lowerHalf b) else productUnsigned (lowerHalf a) (lowerHalf b)

/-- MULH's product of the upper halves, signed (R57, conflict C3). -/
def mulhResult (a b : Word) : Word := productSigned (upperHalf a) (upperHalf b)

/-- MULHU's product of the upper halves, unsigned (R58, conflict C3). -/
def mulhuResult (a b : Word) : Word := productUnsigned (upperHalf a) (upperHalf b)

/-- MUL (R56), its halves read as `Config.mulLowSigned` says. UNVERIFIED: log entry 10. -/
def execMul (rd rs0 rs1 : Reg) (s : State) : Host.Outcome State Fault Refusal :=
  executeTType (fun a b => .ok (mulResult Config.mulLowSigned a b)) rd rs0 rs1 s

/-- MULH (R57). -/
def execMulh (rd rs0 rs1 : Reg) (s : State) : Host.Outcome State Fault Refusal :=
  executeTType (fun a b => .ok (mulhResult a b)) rd rs0 rs1 s

/-- MULHU (R58). -/
def execMulhu (rd rs0 rs1 : Reg) (s : State) : Host.Outcome State Fault Refusal :=
  executeTType (fun a b => .ok (mulhuResult a b)) rd rs0 rs1 s

end Sys2Proof.Machine
end

