-- ==== Sys2Proof/Machine/Dispatch.lean ====
section
/-! DEFINITION. One arm per instruction of the opcode table. -/

namespace Sys2Proof.Machine

/-- What each of the nine instructions does (R51 and the rule of its meaning). -/
def exec (i : Instr) (s : State) : Host.Outcome State Fault Refusal :=
  match i with
  | .add rd rs0 rs1 => Sys2Proof.Machine.execAdd rd rs0 rs1 s
  | .sub rd rs0 rs1 => Sys2Proof.Machine.execSub rd rs0 rs1 s
  | .mul rd rs0 rs1 => Sys2Proof.Machine.execMul rd rs0 rs1 s
  | .mulh rd rs0 rs1 => Sys2Proof.Machine.execMulh rd rs0 rs1 s
  | .mulhu rd rs0 rs1 => Sys2Proof.Machine.execMulhu rd rs0 rs1 s
  | .div rd rs0 rs1 => Sys2Proof.Machine.execDiv rd rs0 rs1 s
  | .divu rd rs0 rs1 => Sys2Proof.Machine.execDivu rd rs0 rs1 s
  | .mod rd rs0 rs1 => Sys2Proof.Machine.execMod rd rs0 rs1 s
  | .modu rd rs0 rs1 => Sys2Proof.Machine.execModu rd rs0 rs1 s

end Sys2Proof.Machine
end

