-- ==== Sys2Proof/WellFormed.lean ====
section
/-! DEFINITION. Which instructions name existing registers. A specifier not below NREG names no register (R42). With
NREG at its default 256 every instruction is well formed (R42, R44); the check keeps NREG as a parameter. -/

namespace Sys2Proof

/-- All three specifiers name registers of a machine with `nreg` registers (R10, R42). -/
abbrev Instr.WfFor (nreg : Nat) (i : Instr) : Prop :=
  i.rd.toNat < nreg ∧ i.rs0.toNat < nreg ∧ i.rs1.toNat < nreg

/-- Well-formedness for this machine's NREG. -/
abbrev Instr.Wf (i : Instr) : Prop := i.WfFor Config.nreg

end Sys2Proof
end

