-- ==== Sys2Proof/Decode.lean ====
section
/-! DEFINITION. The T-Type encoding (R36, R37), the opcode map (R39), the decoder (R40), total on any bytes and
rejecting by name, and the encoder. Bytes in memory are little-endian (R25). The field positions, the bit numbering and
the byte order are the spec's decisions D1, D2 and D11. UNVERIFIED: log entry 13. -/

namespace Sys2Proof

/-- Why the decoder rejects (R40). -/
inductive DecodeError where
  /-- Fewer than four bytes are left; every instruction is 32 bits long (R35). -/
  | truncated
  /-- The opcode is outside 0x0E .. 0x16 (R43). -/
  | opcodeNotInScope (op : Byte)
  /-- A specifier is not below NREG (R42). -/
  | registerOutOfRange
  deriving DecidableEq, Repr

/-- A row of the opcode map (R39): the opcode, the mnemonic and the instruction it selects. -/
structure OpcodeRow where
  opcode : Byte
  mnemonic : String
  build : Reg → Reg → Reg → Instr

/-- The opcode map of R39, in opcode order. -/
def opcodeTable : List OpcodeRow :=
  [ ⟨0x0E#8, "SUB", .sub⟩,
    ⟨0x0F#8, "ADD", .add⟩,
    ⟨0x10#8, "MUL", .mul⟩,
    ⟨0x11#8, "MULH", .mulh⟩,
    ⟨0x12#8, "MULHU", .mulhu⟩,
    ⟨0x13#8, "DIV", .div⟩,
    ⟨0x14#8, "DIVU", .divu⟩,
    ⟨0x15#8, "MOD", .mod⟩,
    ⟨0x16#8, "MODU", .modu⟩ ]

/-- `insn[7:0]`, the opcode (R37). -/
def fieldOpcode (insn : Word) : Byte := insn.extractLsb' 0 8

/-- `insn[15:8]`, rd (R37). -/
def fieldRd (insn : Word) : Reg := insn.extractLsb' 8 8

/-- `insn[23:16]`, rs0 (R37). -/
def fieldRs0 (insn : Word) : Reg := insn.extractLsb' 16 8

/-- `insn[31:24]`, rs1 (R37). -/
def fieldRs1 (insn : Word) : Reg := insn.extractLsb' 24 8

/-- The decoder of R40 for a machine with `nreg` registers: the opcode is looked at first, then the specifiers. -/
def decodeWord (nreg : Nat) (insn : Word) : Except DecodeError Instr :=
  match opcodeTable.find? (fun row => row.opcode == fieldOpcode insn) with
  | none => .error (.opcodeNotInScope (fieldOpcode insn))
  | some row =>
    let i := row.build (fieldRd insn) (fieldRs0 insn) (fieldRs1 insn)
    if i.WfFor nreg then .ok i else .error .registerOutOfRange

/-- The word that four bytes in ascending address order make: the first holds bits 7:0 (R25). -/
def wordOfBytes (b0 b1 b2 b3 : Byte) : Word := b3 ++ b2 ++ b1 ++ b0

/-- The four bytes of a word in ascending address order (R25). -/
def bytesOfWord (w : Word) : List Byte :=
  [w.extractLsb' 0 8, w.extractLsb' 8 8, w.extractLsb' 16 8, w.extractLsb' 24 8]

/-- Reads one instruction off a list of bytes and gives back the bytes after it. -/
def decode : List Byte → Except DecodeError (Instr × List Byte)
  | b0 :: b1 :: b2 :: b3 :: rest =>
    match decodeWord Config.nreg (wordOfBytes b0 b1 b2 b3) with
    | .ok i => .ok (i, rest)
    | .error e => .error e
  | _ => .error .truncated

/-- The opcode constant of each instruction's figure (R39). -/
def Instr.opcode : Instr → Byte
  | .sub _ _ _ => 0x0E#8
  | .add _ _ _ => 0x0F#8
  | .mul _ _ _ => 0x10#8
  | .mulh _ _ _ => 0x11#8
  | .mulhu _ _ _ => 0x12#8
  | .div _ _ _ => 0x13#8
  | .divu _ _ _ => 0x14#8
  | .mod _ _ _ => 0x15#8
  | .modu _ _ _ => 0x16#8

/-- The encoder: `insn = rs1 || rs0 || rd || opcode` (R37). -/
def encode (i : Instr) : Word := i.rs1 ++ i.rs0 ++ i.rd ++ i.opcode

/-- The encoding as bytes in ascending address order: opcode, rd, rs0, rs1 (R25, R38). -/
def encodeBytes (i : Instr) : List Byte := bytesOfWord (encode i)

/-- The host's question: what this decoder reads from an instruction whose bits are `w` as the opcode table numbers
them, the bits from `nbits` up being 0. -/
def decodeTableWord (nbits w : Nat) : Option Instr :=
  match decode (bytesOfWord (BitVec.ofNat 32 (w % 2 ^ nbits))) with
  | .ok (i, _) => some i
  | .error _ => none

end Sys2Proof
end

