-- ==== Sys2Proof/Machine/Fetch.lean ====
section
/-! DEFINITION. Fetching and decoding the instruction at pc (R27, R28, R40, R87), and how a word is placed there. -/

namespace Sys2Proof.Machine

/-- The decoder's reasons as refusals (R74). Too few bytes means a fetch that is not all inside CODE (R28). -/
def refusalOfDecode : DecodeError → Refusal
  | .truncated => .fetchOutsideCode
  | .opcodeNotInScope op => .opcodeNotInScope op
  | .registerOutOfRange => .registerOutOfRange

/-- The first lines of R87's step: the end of the run, the alignment of pc, the bounds of CODE, the fetch and the
decoding, in the order of R75 and R87. The end of the run is DESIGN CHOICE: log entry 6; the bound at END DESIGN CHOICE:
log entry 15; the refusals UNVERIFIED: log entry 18. -/
def fetch (s : State) : Except Refusal Instr :=
  if s.pc.toNat = s.codeEnd then .error .runComplete
  else if s.pc.toNat % 4 ≠ 0 then .error .misalignedPc
  else if s.pc.toNat < s.entry.toNat ∨ s.codeEnd < s.pc.toNat + 4 then .error .fetchOutsideCode
  else
    match memRead s.code s.pc.toNat 4 with
    | none => .error .fetchOutsideCode
    | some insn =>
      match decodeWord Config.nreg insn with
      | .ok i => .ok i
      | .error e => .error (refusalOfDecode e)

/-- Places a word at pc and widens ENTRY .. END so that the four bytes lie inside CODE (R24, R28); the loading that R90
leaves to the outside. DESIGN CHOICE: log entry 5. -/
def placeWord (s : State) (insn : Word) : State :=
  match memWrite s.code s.pc.toNat 4 insn with
  | none => s
  | some m =>
    { s with
      code := m
      entry := if s.pc.toNat < s.entry.toNat then s.pc else s.entry
      codeEnd := if s.codeEnd < s.pc.toNat + 4 then s.pc.toNat + 4 else s.codeEnd }

end Sys2Proof.Machine
end

