-- ==== Sys2Proof/Machine/Step.lean ====
section
/-! DEFINITION. One step of the machine (R87), with three outcomes: next, fault, refusal (R73, R74). -/

namespace Sys2Proof.Machine

/-- Fetch, decode, execute (R87). One core, undisturbed, each instruction finished before the next (R82, R88).
UNVERIFIED: log entries 21 and 22. -/
def step (s : State) : Host.Outcome State Fault Refusal :=
  match fetch s with
  | .error r => .refused r
  | .ok i => exec i s

/-- `s` with the instruction whose bits are `w`, as the opcode table numbers them, placed where step fetches next
(log entry 5). -/
def State.withFetchWord (s : State) (nbits w : Nat) : State :=
  placeWord s (BitVec.ofNat 32 (w % 2 ^ nbits))

end Sys2Proof.Machine
end

