-- ==== Sys2Proof/Machine/Assembly.lean ====
section
/-! DEFINITION. The assembler notation of the nine instructions (R11, R46 to R50) and the transcriber of R49, which
reads exactly the spelling the manual shows, and the manual's template without the second comma (conflict C2). -/

namespace Sys2Proof.Machine

/-- Why the transcriber refuses a line (R49). -/
inductive AsmError where
  /-- The line does not begin with one of the nine mnemonics and a space. -/
  | unknownMnemonic
  /-- An operand is not `r` and a decimal number without leading zeros that is below NREG (R11, R48). -/
  | badRegister
  /-- Two operands are not set apart as R46 and R49 say. -/
  | badSeparator
  /-- Something follows the third operand. -/
  | trailingText
  deriving DecidableEq, Repr

/-- What a line holds (R47, R49). -/
inductive AsmLine where
  | comment
  | instruction (i : Instr)
  deriving DecidableEq, Repr

/-- A number below 1000 in decimal, without leading zeros (R11). -/
def decimal (n : Nat) : List Char :=
  if n < 10 then [Nat.digitChar n]
  else if n < 100 then [Nat.digitChar (n / 10), Nat.digitChar (n % 10)]
  else [Nat.digitChar (n / 100), Nat.digitChar (n / 10 % 10), Nat.digitChar (n % 10)]

/-- The name of a register: `r` and its number in decimal (R11, R48). -/
def registerName (r : Reg) : List Char := 'r' :: decimal r.toNat

/-- The form `MNEMONIC rd, rs0, rs1` (R46). -/
def printInstr (i : Instr) : List Char :=
  i.mnemonic.toList ++ ' ' :: registerName i.rd ++ ',' :: ' ' :: registerName i.rs0 ++ ',' :: ' ' :: registerName i.rs1

/-- The form of the manual's template, with no comma between rs0 and rs1 (R49, conflict C2). -/
def printTemplate (i : Instr) : List Char :=
  i.mnemonic.toList ++ ' ' :: registerName i.rd ++ ',' :: ' ' :: registerName i.rs0 ++ ' ' :: registerName i.rs1

/-- Drops the spaces at the front. -/
def skipSpaces : List Char → List Char
  | ' ' :: rest => skipSpaces rest
  | text => text

/-- What stands after the given word, if the text begins with it. -/
def afterWord : List Char → List Char → Option (List Char)
  | [], text => some text
  | c :: word, d :: text => if c = d then afterWord word text else none
  | _ :: _, [] => none

/-- What stands after the given mnemonic and the spaces behind it (at least one). -/
def afterMnemonic (mnemonic text : List Char) : Option (List Char) :=
  match afterWord mnemonic text with
  | some (' ' :: rest) => some (skipSpaces rest)
  | _ => none

/-- The value of a decimal digit. -/
def digitValue (c : Char) : Option Nat :=
  if 48 ≤ c.toNat ∧ c.toNat ≤ 57 then some (c.toNat - 48) else none

/-- Reads the digits that follow, onto the number read so far. -/
def moreDigits (n : Nat) : List Char → Nat × List Char
  | [] => (n, [])
  | c :: rest =>
    match digitValue c with
    | some d => moreDigits (10 * n + d) rest
    | none => (n, c :: rest)

/-- Reads a decimal number; after a leading zero no digit is taken (R11). -/
def parseNumber : List Char → Option (Nat × List Char)
  | [] => none
  | c :: rest =>
    match digitValue c with
    | none => none
    | some 0 => some (0, rest)
    | some d => some (moreDigits d rest)

/-- Reads a register name (R11, R48). -/
def parseRegister : List Char → Except AsmError (Reg × List Char)
  | 'r' :: rest =>
    match parseNumber rest with
    | some (n, rest') => if n < Config.nreg then .ok (BitVec.ofNat 8 n, rest') else .error .badRegister
    | none => .error .badRegister
  | _ => .error .badRegister

/-- Reads a comma with optional spaces about it (R49). -/
def parseComma (text : List Char) : Except AsmError (List Char) :=
  match skipSpaces text with
  | ',' :: rest => .ok (skipSpaces rest)
  | _ => .error .badSeparator

/-- Reads a comma, or the spaces alone that the template has in its place (R49, conflict C2). -/
def parseCommaOrSpaces (text : List Char) : Except AsmError (List Char) :=
  match parseComma text, text with
  | .ok rest, _ => .ok rest
  | .error _, ' ' :: rest => .ok (skipSpaces rest)
  | .error e, _ => .error e

/-- Reads the three operands, and nothing after them. -/
def parseOperands (build : Reg → Reg → Reg → Instr) (text : List Char) : Except AsmError Instr :=
  match parseRegister text with
  | .error e => .error e
  | .ok (rd, t1) =>
    match parseComma t1 with
    | .error e => .error e
    | .ok t2 =>
      match parseRegister t2 with
      | .error e => .error e
      | .ok (rs0, t3) =>
        match parseCommaOrSpaces t3 with
        | .error e => .error e
        | .ok t4 =>
          match parseRegister t4 with
          | .error e => .error e
          | .ok (rs1, []) => .ok (build rd rs0 rs1)
          | .ok (_, _ :: _) => .error .trailingText

/-- The transcriber of R49 on one line: a comment line (R47), an instruction, or a refusal by name. UNVERIFIED, and DESIGN
CHOICE in what R49 leaves open: log entry 20. -/
def parseLine : List Char → Except AsmError AsmLine
  | ';' :: _ => .ok .comment
  | text =>
    match opcodeTable.findSome? (fun row => (afterMnemonic row.mnemonic.toList text).map (fun t => (row, t))) with
    | none => .error .unknownMnemonic
    | some (row, rest) =>
      match parseOperands row.build rest with
      | .ok i => .ok (.instruction i)
      | .error e => .error e

end Sys2Proof.Machine
end

