-- ==== Sys2Proof/Machine/Launch.lean ====
section
/-! DEFINITION. The launch of a run (R84): what the user of the machine supplies before the first step. -/

namespace Sys2Proof.Machine

/-- Bytes laid out from an address up. -/
def cellsFrom : Nat → List Byte → Memory
  | _, [] => []
  | a, b :: rest => (a, b) :: cellsFrom (a + 1) rest

/-- The text of a straight line of instructions, as bytes in ascending address order (R25, R81). -/
def programText (program : List Instr) : List Byte := program.flatMap encodeBytes

/-- The launch state: pc at ENTRY, the text from ENTRY up to END, each register with its value or its mark (R84). -/
def launch (entry : Word) (text : List Byte) (regs : Vector Word 256) (unwritten : Vector Bool 256) : State :=
  { regs := regs
    unwritten := unwritten
    pc := entry
    code := cellsFrom entry.toNat text
    entry := entry
    codeEnd := entry.toNat + text.length }

end Sys2Proof.Machine
end

