-- ==== Sys2Proof/Safety.lean ====
section
/-! DEFINITION. What counts as a valid launch, a valid state of a run and a completed run (R24, R84 to R86), in the
terms the statements use. -/

namespace Sys2Proof.Machine

/-- ENTRY .. END is a valid code range: both multiples of 4, in order, END at most 2^32 - 4, and CODE in canonical form
with a byte at every address of the range (R24, R85). -/
abbrev State.CodeOk (s : State) : Prop :=
  Memory.wf s.code ∧ s.entry.toNat % 4 = 0 ∧ s.codeEnd % 4 = 0 ∧ s.entry.toNat ≤ s.codeEnd ∧
    s.codeEnd ≤ 2 ^ 32 - 4 ∧
    ∀ a, a < s.codeEnd → s.entry.toNat ≤ a → (readByte s.code a).isSome = true

/-- The invariant of a run: a valid code range, and pc aligned and between ENTRY and END (R15, R24, R28). -/
abbrev State.Inv (s : State) : Prop :=
  s.CodeOk ∧ s.pc.toNat % 4 = 0 ∧ s.entry.toNat ≤ s.pc.toNat ∧ s.pc.toNat ≤ s.codeEnd

/-- No register carries the launch's mark (R14). -/
abbrev State.AllWritten (s : State) : Prop := ∀ n, (h : n < 256) → s.unwritten[n] = false

/-- Every word of the program text decodes (R85). -/
abbrev State.TextDecodes (s : State) : Prop :=
  ∀ a, a < s.codeEnd → s.entry.toNat ≤ a → a % 4 = 0 →
    ((memRead s.code a 4).map (fun w => (decodeWord Config.nreg w).toOption.isSome)) = some true

/-- The run is complete (R86). -/
abbrev State.Complete (s : State) : Prop := s.pc.toNat = s.codeEnd

/-- The conditions on the state and the operands under which the instruction `i` executes (R14, R17): pc is not the last
word of the address space, and neither source carries the mark. -/
abbrev State.Ready (s : State) (i : Instr) : Prop :=
  s.pc ≠ lastWordAddress ∧ s.isUnwritten i.rs0 = false ∧ s.isUnwritten i.rs1 = false

/-- The state after an instruction that writes `v` to `rd` (steps 4 and 5 of R51). -/
def State.afterWrite (s : State) (rd : Reg) (v : Word) : State := advancePc (writeReg s rd v)

end Sys2Proof.Machine
end

