-- ==== Sys2Proof/Certificates/Slice0/Obligations.lean ====
section
/-! DEFINITION. The statements about the machine, for the provers. A docstring names the rule or decision of spec/ a
statement comes from; where it rests on a decision the spec marks as its own, or on a choice of the model, it says so. -/

open Sys2Proof Sys2Proof.Machine

/-- The T-Type word of R37 and the assembler form of R46, the Encoding and Operands lines of an instruction's rule. -/
def HasTTypeForm (i : Instr) (mnemonic : String) (opcode : Byte) (rd rs0 rs1 : Reg) : Prop :=
  encode i = rs1 ++ rs0 ++ rd ++ opcode ∧
    printInstr i = mnemonic.toList ++ ' ' :: registerName rd ++ ',' :: ' ' :: registerName rs0 ++
      ',' :: ' ' :: registerName rs1

/-! ### Encoding -/

/-- Decoding the encoding of an instruction gives it back: for every NREG that its specifiers are below, and, at this
machine's NREG, from the bytes in memory order with anything after them. The positions of the fields and the byte order
are the spec's decisions D1, D2 and D11 (log entry 13). -/
def Obligations.DecodeOfEncodeGivesInstruction : Prop :=
  (∀ (nreg : Nat) (i : Instr), i.WfFor nreg → decodeWord nreg (encode i) = .ok i) ∧
    ∀ (i : Instr) (rest : List Byte), decode (encodeBytes i ++ rest) = .ok (i, rest)

/-- A word that decodes is the encoding of what it decodes to, whose specifiers are below NREG: no bit of a word is
dropped (D1, D3: log entries 1 and 13). -/
def Obligations.EncodeOfDecodeGivesWord : Prop :=
  ∀ (nreg : Nat) (w : Word) (i : Instr), decodeWord nreg w = .ok i → encode i = w ∧ i.WfFor nreg

/-- R35: every instruction is exactly 32 bits long. What decodes is the four bytes of the instruction and then the
rest; fewer than four bytes decode to nothing. -/
def Obligations.EveryInstructionIsFourBytes : Prop :=
  (∀ (bytes rest : List Byte) (i : Instr), decode bytes = .ok (i, rest) →
    bytes = encodeBytes i ++ rest ∧ (encodeBytes i).length * 8 = 32) ∧
  ∀ bytes : List Byte, bytes.length < 4 → decode bytes = .error .truncated

/-- R39: the opcode field selects the instruction, one of nine by its value. -/
def Obligations.OpcodeFieldSelectsInstruction : Prop :=
  ∀ w : Word,
    (fieldOpcode w = 0x0E#8 → (decodeWord Config.nreg w).map Instr.mnemonic = .ok "SUB") ∧
    (fieldOpcode w = 0x0F#8 → (decodeWord Config.nreg w).map Instr.mnemonic = .ok "ADD") ∧
    (fieldOpcode w = 0x10#8 → (decodeWord Config.nreg w).map Instr.mnemonic = .ok "MUL") ∧
    (fieldOpcode w = 0x11#8 → (decodeWord Config.nreg w).map Instr.mnemonic = .ok "MULH") ∧
    (fieldOpcode w = 0x12#8 → (decodeWord Config.nreg w).map Instr.mnemonic = .ok "MULHU") ∧
    (fieldOpcode w = 0x13#8 → (decodeWord Config.nreg w).map Instr.mnemonic = .ok "DIV") ∧
    (fieldOpcode w = 0x14#8 → (decodeWord Config.nreg w).map Instr.mnemonic = .ok "DIVU") ∧
    (fieldOpcode w = 0x15#8 → (decodeWord Config.nreg w).map Instr.mnemonic = .ok "MOD") ∧
    (fieldOpcode w = 0x16#8 → (decodeWord Config.nreg w).map Instr.mnemonic = .ok "MODU")

/-- The decoder's verdict on every word and every NREG: an opcode outside 0x0E .. 0x16 is refused by name; otherwise a
specifier not below NREG is refused by name; otherwise the instruction has the word's opcode and specifiers. The two
refusals are the spec's decisions D16 and D3. -/
def Obligations.DecoderVerdictOnEveryWord : Prop :=
  ∀ (nreg : Nat) (w : Word),
    ((fieldOpcode w).toNat < 0x0E ∨ 0x16 < (fieldOpcode w).toNat →
      decodeWord nreg w = .error (.opcodeNotInScope (fieldOpcode w))) ∧
    (0x0E ≤ (fieldOpcode w).toNat ∧ (fieldOpcode w).toNat ≤ 0x16 →
      (nreg ≤ (fieldRd w).toNat ∨ nreg ≤ (fieldRs0 w).toNat ∨ nreg ≤ (fieldRs1 w).toNat →
        decodeWord nreg w = .error .registerOutOfRange) ∧
      ((fieldRd w).toNat < nreg ∧ (fieldRs0 w).toNat < nreg ∧ (fieldRs1 w).toNat < nreg →
        ∃ i, decodeWord nreg w = .ok i ∧ i.opcode = fieldOpcode w ∧ i.rd = fieldRd w ∧ i.rs0 = fieldRs0 w ∧
          i.rs1 = fieldRs1 w))

/-- The word as a number and as bytes in ascending address order: opcode, rd, rs0, rs1 (decisions D1, D2, D11: log
entry 13). -/
def Obligations.EncodedWordAsNumberAndBytes : Prop :=
  ∀ i : Instr,
    (encode i).toNat = i.opcode.toNat + 2 ^ 8 * i.rd.toNat + 2 ^ 16 * i.rs0.toNat + 2 ^ 24 * i.rs1.toNat ∧
      encodeBytes i = [i.opcode, i.rd, i.rs0, i.rs1]

/-- The worked encodings of 30_encoding.md section 7, and the nearest refused opcodes of 95_test_vectors.md 2.1. -/
def Obligations.WorkedEncodingsDecode : Prop :=
  decode [0x0F, 0x00, 0x01, 0x02] = .ok (.add 0 1 2, []) ∧
  decode [0x0E, 0x01, 0x02, 0x03] = .ok (.sub 1 2 3, []) ∧
  decode [0x16, 0x12, 0x34, 0x56] = .ok (.modu 18 52 86, []) ∧
  decode [0x0F, 0xFF, 0xFF, 0xFF] = .ok (.add 255 255 255, []) ∧
  decode [0x0D, 0x00, 0x01, 0x02] = .error (.opcodeNotInScope 0x0D) ∧
  decode [0x17, 0x00, 0x01, 0x02] = .error (.opcodeNotInScope 0x17)

/-- Transcribing the assembler form of an instruction gives the instruction, with the comma between rs0 and rs1 and, as
the manual's template has it, without; a line that starts with a semicolon is a comment (decisions D4 and D17, conflict
C2: log entry 20). -/
def Obligations.AssemblerTextReadsBack : Prop :=
  (∀ i : Instr, parseLine (printInstr i) = .ok (.instruction i) ∧
    parseLine (printTemplate i) = .ok (.instruction i)) ∧
  ∀ text : List Char, parseLine (';' :: text) = .ok .comment

/-! ### The step -/

/-- When the four bytes at pc lie in CODE and decode to an instruction, and pc is aligned and inside ENTRY .. END, the
step is that instruction's execution and nothing else (decisions D12 and D13). -/
def Obligations.StepRunsDecodedInstruction : Prop :=
  ∀ (s : State) (i : Instr) (b0 b1 b2 b3 : Byte),
    s.pc.toNat % 4 = 0 → s.entry.toNat ≤ s.pc.toNat → s.pc.toNat + 4 ≤ s.codeEnd →
    readByte s.code s.pc.toNat = some b0 → readByte s.code (s.pc.toNat + 1) = some b1 →
    readByte s.code (s.pc.toNat + 2) = some b2 → readByte s.code (s.pc.toNat + 3) = some b3 →
    decode [b0, b1, b2, b3] = .ok (i, []) →
    step s = exec i s

/-- A word placed at an aligned pc is the instruction the next step runs; placing it changes no register, no mark and
not pc (the model's own loading operation: log entry 5). -/
def Obligations.PlacedWordRunsNext : Prop :=
  ∀ (s : State) (i : Instr), s.code.Pairwise (fun c d => c.1 < d.1) → s.pc.toNat % 4 = 0 →
    step (s.withFetchWord 32 (encode i).toNat) = exec i (s.withFetchWord 32 (encode i).toNat) ∧
      (s.withFetchWord 32 (encode i).toNat).pc = s.pc ∧
      (s.withFetchWord 32 (encode i).toNat).regs = s.regs ∧
      (s.withFetchWord 32 (encode i).toNat).unwritten = s.unwritten

/-- Where a step does not reach an instruction, and under which name it stops, in the order of R75 and R87: the end of
the run (the model's `runComplete`: log entry 6), a misaligned pc, a pc outside CODE, a byte CODE does not hold, an
opcode outside scope. The stops are the spec's decisions D12, D13, D16, D23 and D27, but for two: the name of the
completed run is the model's, and that a byte missing inside ENTRY .. END, a state R24 excludes, is refused as
fetchOutsideCode too is read from R28 by inference (DEDUCED: log entry 16). A specifier out of range does not arise at NREG = 256; the
decoder's refusal of it is stated for every NREG in DecoderVerdictOnEveryWord. -/
def Obligations.StepStopsBeforeExecution : Prop :=
  ∀ s : State,
    (s.pc.toNat = s.codeEnd → step s = .refused .runComplete) ∧
    (s.pc.toNat ≠ s.codeEnd → s.pc.toNat % 4 ≠ 0 → step s = .refused .misalignedPc) ∧
    (s.pc.toNat ≠ s.codeEnd → s.pc.toNat % 4 = 0 → s.pc.toNat < s.entry.toNat ∨ s.codeEnd < s.pc.toNat →
      step s = .refused .fetchOutsideCode) ∧
    (s.pc.toNat ≠ s.codeEnd → s.pc.toNat % 4 = 0 → (∃ k, k < 4 ∧ readByte s.code (s.pc.toNat + k) = none) →
      step s = .refused .fetchOutsideCode) ∧
    (s.pc.toNat % 4 = 0 → s.entry.toNat ≤ s.pc.toNat → s.pc.toNat + 4 ≤ s.codeEnd →
      ∀ w : Word, memRead s.code s.pc.toNat 4 = some w →
        (fieldOpcode w).toNat < 0x0E ∨ 0x16 < (fieldOpcode w).toNat →
        step s = .refused (.opcodeNotInScope (fieldOpcode w)))

/-- An instruction at pc = 0xFFFFFFFC is refused by name, whatever its operands hold (decision D7). -/
def Obligations.LastWordOfAddressSpaceRefused : Prop :=
  ∀ (i : Instr) (s : State), s.pc = 0xFFFFFFFC#32 → exec i s = .refused .pcWrap

/-- Reading a register that carries the launch's mark faults under that register's name, rs0 before rs1 (decisions D6
and D23). After reset no register carries the mark (the model's choice: log entry 3). -/
def Obligations.MarkedSourceFaults : Prop :=
  ∀ (i : Instr) (s : State), s.pc ≠ 0xFFFFFFFC#32 →
    (s.isUnwritten i.rs0 = true → exec i s = .fault (.unwrittenRegister i.rs0)) ∧
    (s.isUnwritten i.rs0 = false → s.isUnwritten i.rs1 = true → exec i s = .fault (.unwrittenRegister i.rs1))

/-! ### The nine results -/

/-- R52. In every state whose pc is not the last word and whose two sources carry no mark, ADD completes: rd holds the
sum modulo 2^32, the same for the signed and the unsigned reading, and pc is advanced by 4. -/
def Obligations.AddWritesSumModuloWord : Prop :=
  ∀ (rd rs0 rs1 : Reg) (s : State), HasTTypeForm (.add rd rs0 rs1) "ADD" 0x0F#8 rd rs0 rs1 ∧
    (s.Ready (.add rd rs0 rs1) →
      ∃ t, exec (.add rd rs0 rs1) s = .next t ∧
        t.reg rd = trunc32 (unsigned (s.reg rs0) + unsigned (s.reg rs1)) ∧
        t.reg rd = trunc32 (signed (s.reg rs0) + signed (s.reg rs1)) ∧
        t.pc = s.pc + 4#32)

/-- R53. SUB completes: rd holds first source minus second modulo 2^32, the same for both readings. -/
def Obligations.SubWritesDifferenceModuloWord : Prop :=
  ∀ (rd rs0 rs1 : Reg) (s : State), HasTTypeForm (.sub rd rs0 rs1) "SUB" 0x0E#8 rd rs0 rs1 ∧
    (s.Ready (.sub rd rs0 rs1) →
      ∃ t, exec (.sub rd rs0 rs1) s = .next t ∧
        t.reg rd = trunc32 (unsigned (s.reg rs0) - unsigned (s.reg rs1)) ∧
        t.reg rd = trunc32 (signed (s.reg rs0) - signed (s.reg rs1)) ∧
        t.pc = s.pc + 4#32)

/-- MUL completes: rd holds the exact product of the lower halves read as unsigned numbers. That they are unsigned is
the spec's decision D18 (log entry 10). -/
def Obligations.MulWritesProductOfLowerHalves : Prop :=
  ∀ (rd rs0 rs1 : Reg) (s : State), HasTTypeForm (.mul rd rs0 rs1) "MUL" 0x10#8 rd rs0 rs1 ∧
    (s.Ready (.mul rd rs0 rs1) →
      ∃ t, exec (.mul rd rs0 rs1) s = .next t ∧
        t.reg rd = trunc32 (unsigned (lowerHalf (s.reg rs0)) * unsigned (lowerHalf (s.reg rs1))) ∧
        unsigned (t.reg rd) = unsigned (lowerHalf (s.reg rs0)) * unsigned (lowerHalf (s.reg rs1)) ∧
        t.pc = s.pc + 4#32)

/-- R57. MULH completes: rd holds the 32-bit product of the upper halves read as signed numbers, which never
overflows. -/
def Obligations.MulhWritesSignedProductOfUpperHalves : Prop :=
  ∀ (rd rs0 rs1 : Reg) (s : State), HasTTypeForm (.mulh rd rs0 rs1) "MULH" 0x11#8 rd rs0 rs1 ∧
    (s.Ready (.mulh rd rs0 rs1) →
      ∃ t, exec (.mulh rd rs0 rs1) s = .next t ∧
        t.reg rd = trunc32 (signed (upperHalf (s.reg rs0)) * signed (upperHalf (s.reg rs1))) ∧
        signed (t.reg rd) = signed (upperHalf (s.reg rs0)) * signed (upperHalf (s.reg rs1)) ∧
        t.pc = s.pc + 4#32)

/-- R58. MULHU completes: rd holds the 32-bit product of the upper halves read as unsigned numbers, which is below
2^32. -/
def Obligations.MulhuWritesUnsignedProductOfUpperHalves : Prop :=
  ∀ (rd rs0 rs1 : Reg) (s : State), HasTTypeForm (.mulhu rd rs0 rs1) "MULHU" 0x12#8 rd rs0 rs1 ∧
    (s.Ready (.mulhu rd rs0 rs1) →
      ∃ t, exec (.mulhu rd rs0 rs1) s = .next t ∧
        t.reg rd = trunc32 (unsigned (upperHalf (s.reg rs0)) * unsigned (upperHalf (s.reg rs1))) ∧
        unsigned (t.reg rd) = unsigned (upperHalf (s.reg rs0)) * unsigned (upperHalf (s.reg rs1)) ∧
        t.pc = s.pc + 4#32)

/-- DIV completes off its two corners: rd holds the signed quotient of x[rs0] by x[rs1], rounded toward zero. The
rounding is the spec's decision D19 (log entry 11), the operand order conflict C1 (log entry 12). -/
def Obligations.DivWritesSignedQuotient : Prop :=
  ∀ (rd rs0 rs1 : Reg) (s : State), HasTTypeForm (.div rd rs0 rs1) "DIV" 0x13#8 rd rs0 rs1 ∧
    (s.Ready (.div rd rs0 rs1) → signed (s.reg rs1) ≠ 0 →
      ¬(signed (s.reg rs0) = -(2 ^ 31) ∧ signed (s.reg rs1) = -1) →
      ∃ t, exec (.div rd rs0 rs1) s = .next t ∧
        t.reg rd = trunc32 (divT (signed (s.reg rs0)) (signed (s.reg rs1))) ∧
        signed (t.reg rd) = divT (signed (s.reg rs0)) (signed (s.reg rs1)) ∧
        t.pc = s.pc + 4#32)

/-- DIVU completes for a non-zero divisor: rd holds the unsigned quotient rounded down, which always fits. -/
def Obligations.DivuWritesUnsignedQuotient : Prop :=
  ∀ (rd rs0 rs1 : Reg) (s : State), HasTTypeForm (.divu rd rs0 rs1) "DIVU" 0x14#8 rd rs0 rs1 ∧
    (s.Ready (.divu rd rs0 rs1) → unsigned (s.reg rs1) ≠ 0 →
      ∃ t, exec (.divu rd rs0 rs1) s = .next t ∧
        t.reg rd = trunc32 (divU (unsigned (s.reg rs0)) (unsigned (s.reg rs1))) ∧
        unsigned (t.reg rd) = unsigned (s.reg rs0) / unsigned (s.reg rs1) ∧
        t.pc = s.pc + 4#32)

/-- MOD completes for a non-zero divisor: rd holds the remainder that goes with DIV's quotient, and 0 at DIV's
overflow pair. The rounding is decision D19 (log entry 11), the 0 decision D21 (log entry 9). -/
def Obligations.ModWritesSignedRemainder : Prop :=
  ∀ (rd rs0 rs1 : Reg) (s : State), HasTTypeForm (.mod rd rs0 rs1) "MOD" 0x15#8 rd rs0 rs1 ∧
    (s.Ready (.mod rd rs0 rs1) → signed (s.reg rs1) ≠ 0 →
      ∃ t, exec (.mod rd rs0 rs1) s = .next t ∧
        t.reg rd = trunc32 (remT (signed (s.reg rs0)) (signed (s.reg rs1))) ∧
        signed (t.reg rd) = remT (signed (s.reg rs0)) (signed (s.reg rs1)) ∧
        (signed (s.reg rs0) = -(2 ^ 31) ∧ signed (s.reg rs1) = -1 → t.reg rd = 0#32) ∧
        t.pc = s.pc + 4#32)

/-- MODU completes for a non-zero divisor: rd holds the unsigned remainder, below the divisor. -/
def Obligations.ModuWritesUnsignedRemainder : Prop :=
  ∀ (rd rs0 rs1 : Reg) (s : State), HasTTypeForm (.modu rd rs0 rs1) "MODU" 0x16#8 rd rs0 rs1 ∧
    (s.Ready (.modu rd rs0 rs1) → unsigned (s.reg rs1) ≠ 0 →
      ∃ t, exec (.modu rd rs0 rs1) s = .next t ∧
        t.reg rd = trunc32 (remU (unsigned (s.reg rs0)) (unsigned (s.reg rs1))) ∧
        unsigned (t.reg rd) = unsigned (s.reg rs0) % unsigned (s.reg rs1) ∧
        t.pc = s.pc + 4#32)

/-- With a zero divisor each of the four divisions completes and writes the free value of R76 for its dividend: the
model's choice among the settings of the OPEN parameter DIV_ZERO (log entry 7). It holds for every free value. -/
def Obligations.ZeroDivisorWritesFreeValue : Prop :=
  ∀ (rd rs0 rs1 : Reg) (s : State), s.pc ≠ 0xFFFFFFFC#32 → s.isUnwritten rs0 = false → s.isUnwritten rs1 = false →
    s.reg rs1 = 0#32 →
    (∃ t, exec (.div rd rs0 rs1) s = .next t ∧ t.reg rd = Config.divZero (s.reg rs0) ∧ t.pc = s.pc + 4#32) ∧
    (∃ t, exec (.divu rd rs0 rs1) s = .next t ∧ t.reg rd = Config.divuZero (s.reg rs0) ∧ t.pc = s.pc + 4#32) ∧
    (∃ t, exec (.mod rd rs0 rs1) s = .next t ∧ t.reg rd = Config.modZero (s.reg rs0) ∧ t.pc = s.pc + 4#32) ∧
    (∃ t, exec (.modu rd rs0 rs1) s = .next t ∧ t.reg rd = Config.moduZero (s.reg rs0) ∧ t.pc = s.pc + 4#32)

/-- At -2^31 by -1 DIV completes and writes the free constant of R76: the model's choice among the settings of the OPEN
parameter DIV_OVERFLOW (log entry 8). DIVU and MODU have their ordinary results there: the quotient 0 of 2^31 by 2^32 - 1 and the
remainder 2^31, by the corner cases of 42_arith_divide_modulo.md sections 3 and 5. -/
def Obligations.OverflowPairWritesFreeValue : Prop :=
  ∀ (rd rs0 rs1 : Reg) (s : State), s.pc ≠ 0xFFFFFFFC#32 → s.isUnwritten rs0 = false → s.isUnwritten rs1 = false →
    s.reg rs0 = 0x80000000#32 → s.reg rs1 = 0xFFFFFFFF#32 →
    (∃ t, exec (.div rd rs0 rs1) s = .next t ∧ t.reg rd = Config.divOverflow ∧ t.pc = s.pc + 4#32) ∧
    (∃ t, exec (.divu rd rs0 rs1) s = .next t ∧ t.reg rd = 0#32) ∧
    (∃ t, exec (.modu rd rs0 rs1) s = .next t ∧ t.reg rd = 0x80000000#32)

/-- Under every setting of the two OPEN parameters, and every fault: a division gives that fault exactly when it is
divideByZero, DIV_ZERO has the spec's default setting and the divisor is zero, or, for DIV alone, it is divideOverflow,
DIV_OVERFLOW has the default setting and the operands are -2^31 and -1. So under the defaults exactly the two corners are
model faults, each of its own name (decisions D20 and D21). This machine takes the other setting of both (the model's
choice: log entries 7 and 8), under which no division faults. -/
def Obligations.DefaultCornerRulesFault : Prop :=
  ∀ (r : Rounding) (z o : CornerRule) (a b : Word) (f : Fault),
    (divResult r z o a b = .error f ↔
      (f = .divideByZero ∧ z = .modelFault ∧ unsigned b = 0) ∨
      (f = .divideOverflow ∧ o = .modelFault ∧ a = 0x80000000#32 ∧ b = 0xFFFFFFFF#32)) ∧
    (divuResult z a b = .error f ↔ f = .divideByZero ∧ z = .modelFault ∧ unsigned b = 0) ∧
    (modResult r z a b = .error f ↔ f = .divideByZero ∧ z = .modelFault ∧ unsigned b = 0) ∧
    (moduResult z a b = .error f ↔ f = .divideByZero ∧ z = .modelFault ∧ unsigned b = 0)

/-! ### What the nine have in common -/

/-- The right-hand side is computed from the values before the instruction and only then is rd written: two
executions of one instruction whose sources hold the same values write the same value, whichever register is the
destination, be it one of the sources or both. That both executions complete for every value of the sources rests, at a
zero divisor and at DIV's overflow pair, on the model's choice (log entries 7 and 8), and the free overlap of registers in
the divisions on the spec's decision D22 (log entry 24). -/
def Obligations.ResultComesFromOldSourceValues : Prop :=
  ∀ row ∈ opcodeTable, ∀ (rd rd' rs0 rs0' rs1 rs1' : Reg) (s s' : State),
    s.Ready (row.build rd rs0 rs1) → s'.Ready (row.build rd' rs0' rs1') →
    s.reg rs0 = s'.reg rs0' → s.reg rs1 = s'.reg rs1' →
    ∃ t t', exec (row.build rd rs0 rs1) s = .next t ∧ exec (row.build rd' rs0' rs1') s' = .next t' ∧
      t.reg rd = t'.reg rd'

/-- An instruction completes exactly when pc is not the last word and neither source carries the mark; no operand value
stops it (for the divisions this rests on log entries 7 and 8). -/
def Obligations.CompletesExactlyWhenReady : Prop :=
  ∀ (i : Instr) (s : State), (∃ t, exec i s = .next t) ↔ s.Ready i

/-- The frame of all nine, ADD, SUB, MUL, MULH, MULHU, DIV, DIVU, MOD and MODU, over every operand: only rd is written,
rd loses the launch's mark and no other register's mark changes, ENTRY and END and every byte of CODE stay, and pc is
advanced by 4 (decisions D6 and D7 for the marks and pc). -/
def Obligations.FrameOfAllNineInstructions : Prop :=
  ∀ (i : Instr) (s t : State), exec i s = .next t →
    (∀ r : Reg, r ≠ i.rd → t.reg r = s.reg r ∧ t.isUnwritten r = s.isUnwritten r) ∧
    t.isUnwritten i.rd = false ∧ t.entry = s.entry ∧ t.codeEnd = s.codeEnd ∧ t.code = s.code ∧
    (∀ a : Nat, readByte t.code a = readByte s.code a) ∧ t.pc = s.pc + 4#32

/-- R23. No instruction reads or writes memory: executed over any other memory it has the same outcome and leaves that
memory as it is. The only access is the fetch, which reads the four bytes at pc and no other. -/
def Obligations.OnlyFetchReadsMemory : Prop :=
  ∀ (s : State) (c : Memory),
    (∀ (i : Instr) (t : State), exec i s = .next t →
      t.code = s.code ∧ exec i { s with code := c } = .next { t with code := c }) ∧
    (∀ (i : Instr) (f : Fault), exec i s = .fault f → exec i { s with code := c } = .fault f) ∧
    (∀ (i : Instr) (r : Refusal), exec i s = .refused r → exec i { s with code := c } = .refused r) ∧
    ((∀ k, k < 4 → readByte c (s.pc.toNat + k) = readByte s.code (s.pc.toNat + k)) →
      fetch { s with code := c } = fetch s)

/-- Every register, r0 included, holds the last value written to it, and loses the launch's mark with the write
(decisions D5 and D6). -/
def Obligations.RegisterHoldsLastWrite : Prop :=
  ∀ (s : State) (r r' : Reg) (v : Word),
    (writeReg s r v).reg r = v ∧ (writeReg s r v).isUnwritten r = false ∧
    (r' ≠ r → (writeReg s r v).reg r' = s.reg r' ∧ (writeReg s r v).isUnwritten r' = s.isUnwritten r')

/-! ### Reset, launch and runs -/

/-- The state after reset, all of it the model's choice, since the spec gives no reset value: every register 0 and
unmarked, pc, ENTRY and END 0, no program text; the run is complete at once (log entries 2, 3, 4, 5 and 6). -/
def Obligations.ResetStateValues : Prop :=
  (∀ r : Reg, State.reset.reg r = 0#32 ∧ State.reset.isUnwritten r = false) ∧
    State.reset.pc = 0#32 ∧ State.reset.code = [] ∧ State.reset.entry = 0#32 ∧ State.reset.codeEnd = 0 ∧
    step State.reset = .refused .runComplete

/-- The state after reset meets the invariant of a run and marks no register (log entries 3 and 4). -/
def Obligations.ResetMeetsInvariant : Prop := State.reset.Inv ∧ State.reset.AllWritten

/-- A launch from an aligned ENTRY with a text of whole words that ends by 2^32 - 4 meets the invariant of a run, and
holds the text from ENTRY on (decisions D13 and D25). -/
def Obligations.LaunchMeetsInvariant : Prop :=
  ∀ (entry : Word) (text : List Byte) (regs : Vector Word 256) (unwritten : Vector Bool 256),
    entry.toNat % 4 = 0 → text.length % 4 = 0 → entry.toNat + text.length ≤ 2 ^ 32 - 4 →
    (launch entry text regs unwritten).Inv ∧
      ∀ k, k < text.length → readByte (launch entry text regs unwritten).code (entry.toNat + k) = text[k]?

/-- Every step keeps the invariant of a run: CODE in canonical form with a byte at every address of ENTRY .. END, both
ends aligned and END at most 2^32 - 4, and pc aligned and between them (decisions D7, D12 and D13). -/
def Obligations.StepKeepsInvariant : Prop :=
  ∀ s t : State, s.Inv → step s = .next t → t.Inv

/-- Where no register carries the mark, no step faults and no later register carries it (for the divisions this rests on
log entries 7 and 8). -/
def Obligations.UnmarkedStatesNeverFault : Prop :=
  ∀ s : State, s.AllWritten → (∀ f, step s ≠ .fault f) ∧ ∀ t, step s = .next t → t.AllWritten

/-- Along any number of steps pc counts the instructions by 4 and CODE, ENTRY and END stay (decisions D7 and D13). -/
def Obligations.RunAdvancesPcByFourPerStep : Prop :=
  ∀ (k : Nat) (s t : State), Host.Core.run Sys2Proof.core k s = .next t →
    t.pc = s.pc + BitVec.ofNat 32 (4 * k) ∧ t.code = s.code ∧ t.entry = s.entry ∧ t.codeEnd = s.codeEnd

/-- Every run ends: from a state that meets the invariant, the steps after which pc would have passed the last word
never all answer a next state (the bound R87 derives, with the model's `runComplete`: log entry 6). -/
def Obligations.EveryRunEnds : Prop :=
  ∀ s : State, s.Inv → ∀ t, Host.Core.run Sys2Proof.core ((s.codeEnd - s.pc.toNat) / 4 + 1) s ≠ .next t

/-- A run completes: from every state that meets the invariant, whose text decodes and in which no register carries the
mark, the run reaches END after one step for each word ahead of pc, and stops there as complete (R85 and R86 by decisions
D25 and D27; for the divisions log entries 7 and 8). -/
def Obligations.RunReachesEnd : Prop :=
  ∀ s : State, s.Inv → s.TextDecodes → s.AllWritten →
    ∃ t, Host.Core.run Sys2Proof.core ((s.codeEnd - s.pc.toNat) / 4) s = .next t ∧ t.Complete ∧
      step t = .refused .runComplete

/-! ### The code memory -/

/-- MemRead after MemWrite gives the value, every other byte stays, and MemWrite answers exactly where all its bytes have
32-bit addresses (decision D11; the answer at the top of the address space is the model's: log entry 18). -/
def Obligations.MemReadAfterMemWrite : Prop :=
  ∀ (m : Memory) (a n : Nat) (v : BitVec (8 * n)), m.Pairwise (fun c d => c.1 < d.1) →
    (∀ m', memWrite m a n v = some m' →
      memRead m' a n = some v ∧ ∀ x, x < a ∨ a + n ≤ x → readByte m' x = readByte m x) ∧
    ((memWrite m a n v).isSome = true ↔ a + n ≤ 2 ^ 32)

/-- What MemRead gives is the bytes at its addresses, the lowest address in bits 7:0 (decision D11). -/
def Obligations.MemReadIsLittleEndian : Prop :=
  ∀ (m : Memory) (n a : Nat) (v : BitVec (8 * n)),
    memRead m a n = some v ↔ ∀ k, k < n → readByte m (a + k) = some (v.extractLsb' (8 * k) 8)

/-- MemWrite keeps the canonical form of memory, and so does placing a word at pc. -/
def Obligations.MemWriteKeepsCanonicalForm : Prop :=
  (∀ (m m' : Memory) (a n : Nat) (v : BitVec (8 * n)), Memory.wf m → memWrite m a n v = some m' → Memory.wf m') ∧
    ∀ (s : State) (w : Word), Memory.wf s.code → Memory.wf (placeWord s w).code

/-! ### Arithmetic laws -/

/-- ADD and SUB: commutativity, associativity, identity and the inverse laws; each equals the true sum or difference
exactly when that lies in range, unsigned and signed. Derived by the spec in R54. -/
def Obligations.AddSubLawsAndExactness : Prop :=
  ∀ a b c : Word,
    addResult a b = addResult b a ∧ addResult (addResult a b) c = addResult a (addResult b c) ∧
    addResult a 0#32 = a ∧ subResult a b = addResult a (trunc32 (2 ^ 32 - unsigned b)) ∧
    subResult (addResult a b) b = a ∧ addResult (subResult a b) b = a ∧ subResult a a = 0#32 ∧
    (unsigned (addResult a b) = unsigned a + unsigned b ↔ unsigned a + unsigned b < 2 ^ 32) ∧
    (unsigned (subResult a b) = unsigned a - unsigned b ↔ unsigned b ≤ unsigned a) ∧
    (signed (addResult a b) = signed a + signed b ↔
      -(2 ^ 31) ≤ signed a + signed b ∧ signed a + signed b ≤ 2 ^ 31 - 1) ∧
    (signed (subResult a b) = signed a - signed b ↔
      -(2 ^ 31) ≤ signed a - signed b ∧ signed a - signed b ≤ 2 ^ 31 - 1)

/-- The half a multiply does not read does not influence its result. Stated of R55's three multiplies. -/
def Obligations.MultipliesIgnoreOtherHalf : Prop :=
  ∀ (signedLow : Bool) (a a' b b' : Word),
    (lowerHalf a = lowerHalf a' → lowerHalf b = lowerHalf b' → mulResult signedLow a b = mulResult signedLow a' b') ∧
    (upperHalf a = upperHalf a' → upperHalf b = upperHalf b' →
      mulhResult a b = mulhResult a' b' ∧ mulhuResult a b = mulhuResult a' b')

/-- MULH against MULHU, and MUL by MULHU of the operands moved up. Derived by the spec in R59; MUL's halves are unsigned by
decision D18 (log entry 10). -/
def Obligations.MulhCorrectsMulhu : Prop :=
  ∀ a b : Word,
    let correction := 2 ^ 16 * ((if a.msb then 1 else 0) * unsigned (upperHalf b) +
      (if b.msb then 1 else 0) * unsigned (upperHalf a))
    mulhResult a b = trunc32 (unsigned (mulhuResult a b) - correction) ∧
    (mulhResult a b = mulhuResult a b ↔ (2 ^ 32 : Int) ∣ correction) ∧
    lowerHalf (mulhResult a b) = lowerHalf (mulhuResult a b) ∧
    mulResult Config.mulLowSigned a b = mulhuResult (lowerHalf a ++ 0#16) (lowerHalf b ++ 0#16)

/-- MUL's two readings agree in bits 15:0 always and wholly when bit 15 of both sources is clear, so that decision D18
matters nowhere else. -/
def Obligations.MulReadingsAgreeInLowBits : Prop :=
  ∀ a b : Word,
    lowerHalf (mulResult true a b) = lowerHalf (mulResult false a b) ∧
    (a.getLsbD 15 = false → b.getLsbD 15 = false → mulResult true a b = mulResult false a b)

/-- Every rounding convention gives the same quotient and remainder for a non-negative dividend and a positive divisor,
and for an exact division at any signs; in the first case alone DIV is DIVU and MOD is MODU; on every other pair two quotients differ by at most one.
Derived by the spec in R68, so that decision D19 matters nowhere else. -/
def Obligations.RoundingConventionsAgreeOnDomain : Prop :=
  (∀ (r r' : Rounding) (a b : Int), b ≠ 0 →
    ((0 ≤ a ∧ 0 < b) ∨ b ∣ a → quotientBy r a b = quotientBy r' a b ∧ remainderBy r a b = remainderBy r' a b) ∧
    |quotientBy r a b - quotientBy r' a b| ≤ 1) ∧
  ∀ (r : Rounding) (z o : CornerRule) (a b : Word), 0 ≤ signed a → 0 < signed b →
    divResult r z o a b = divuResult z a b ∧ modResult r z a b = moduResult z a b

/-- Quotient and remainder belong together: off the corners, DIV and MOD rebuild the dividend, MOD is smaller than the
divisor in size and takes the dividend's sign; DIVU and MODU rebuild it exactly and MODU is below the divisor. Derived by
the spec in R69, the sign by decision D19 (log entry 11). -/
def Obligations.QuotientAndRemainderRebuildDividend : Prop :=
  ∀ a b q r : Word, b ≠ 0#32 →
    (¬ IsOverflowPair a b →
      divResult Config.sdivRounding Config.divZeroRule Config.divOverflowRule a b = .ok q →
      modResult Config.sdivRounding Config.divZeroRule a b = .ok r →
      a = trunc32 (signed b * signed q + signed r) ∧ |signed r| < |signed b| ∧
        (signed r ≠ 0 → (signed r).sign = (signed a).sign)) ∧
    (divuResult Config.divZeroRule a b = .ok q → moduResult Config.divZeroRule a b = .ok r →
      unsigned a = unsigned b * unsigned q + unsigned r ∧ 0 ≤ unsigned r ∧ unsigned r < unsigned b)
end

