-- ==== Sys2Proof/Laws/Assembly.lean ====
section
/-! SUPPORT. The transcriber on its parts: digits, numbers, register names, separators. -/

namespace Sys2Proof.Machine

/-- The text does not begin with a digit. -/
def NoDigitAhead (text : List Char) : Prop := ∀ c ∈ text.head?, digitValue c = none

theorem digitValue_digitChar {d : Nat} (h : d < 10) : digitValue (Nat.digitChar d) = some d := by
  interval_cases d <;> rfl

theorem moreDigits_of_noDigit (n : Nat) {text : List Char} (h : NoDigitAhead text) : moreDigits n text = (n, text) := by
  cases text with
  | nil => rfl
  | cons c rest => simp [moreDigits, h c rfl]

theorem moreDigits_digit (n : Nat) {d : Nat} (h : d < 10) (text : List Char) :
    moreDigits n (Nat.digitChar d :: text) = moreDigits (10 * n + d) text := by
  simp [moreDigits, digitValue_digitChar h]

theorem parseNumber_digit {d : Nat} (h : d < 10) (h0 : d ≠ 0) (text : List Char) :
    parseNumber (Nat.digitChar d :: text) = some (moreDigits d text) := by
  simp only [parseNumber, digitValue_digitChar h]

/-- A number below 1000 reads back from its decimal form (R11). -/
theorem parseNumber_decimal {n : Nat} (hn : n < 1000) {text : List Char} (h : NoDigitAhead text) :
    parseNumber (decimal n ++ text) = some (n, text) := by
  unfold decimal
  split
  · by_cases h0 : n = 0
    · subst h0
      simp [parseNumber, digitValue_digitChar]
    · rw [List.singleton_append, parseNumber_digit (by omega) h0, moreDigits_of_noDigit _ h]
  · split
    · simp only [List.cons_append, List.nil_append]
      rw [parseNumber_digit (by omega) (by omega), moreDigits_digit _ (by omega), moreDigits_of_noDigit _ h]
      congr 2
      omega
    · simp only [List.cons_append, List.nil_append]
      rw [parseNumber_digit (by omega) (by omega), moreDigits_digit _ (by omega), moreDigits_digit _ (by omega),
        moreDigits_of_noDigit _ h]
      congr 2
      omega

/-- A register name reads back (R11, R48). -/
theorem parseRegister_registerName (r : Reg) {text : List Char} (h : NoDigitAhead text) :
    parseRegister (registerName r ++ text) = .ok (r, text) := by
  have hr : r.toNat < 256 := r.isLt
  simp only [registerName, List.cons_append, parseRegister, parseNumber_decimal (show r.toNat < 1000 by omega) h]
  rw [if_pos (show r.toNat < Config.nreg from hr), BitVec.ofNat_toNat, BitVec.setWidth_eq]

@[simp] theorem skipSpaces_space (text : List Char) : skipSpaces (' ' :: text) = skipSpaces text := by
  simp [skipSpaces]

@[simp] theorem skipSpaces_comma (text : List Char) : skipSpaces (',' :: text) = ',' :: text := by
  simp [skipSpaces]

@[simp] theorem skipSpaces_registerName (r : Reg) (text : List Char) :
    skipSpaces (registerName r ++ text) = registerName r ++ text := by
  simp [registerName, skipSpaces]

end Sys2Proof.Machine
end

