-- ==== Sys2Proof/Laws/PerInstr.lean ====
section
/-! SUPPORT. Statements made per instruction: the four fields of the encoded word (R36, R37, R39). -/

namespace Sys2Proof.Laws

/-- The number that two vectors side by side denote. -/
theorem toNat_append_eq {m n : Nat} (x : BitVec m) (y : BitVec n) : (x ++ y).toNat = x.toNat * 2 ^ n + y.toNat := by
  rw [BitVec.toNat_append, Nat.shiftLeft_eq, mul_comm, ← Nat.two_pow_add_eq_or_of_lt y.isLt]

/-- The number that four bytes side by side denote. -/
theorem toNat_append_bytes (op rd rs0 rs1 : BitVec 8) :
    (rs1 ++ rs0 ++ rd ++ op : Word).toNat =
      op.toNat + 2 ^ 8 * rd.toNat + 2 ^ 16 * rs0.toNat + 2 ^ 24 * rs1.toNat := by
  rw [toNat_append_eq, toNat_append_eq, toNat_append_eq]; omega

/-- The number that one byte of a word denotes. -/
theorem toNat_extractByte (w : Word) (k : Nat) : (w.extractLsb' k 8).toNat = w.toNat / 2 ^ k % 256 := by
  rw [BitVec.extractLsb'_toNat, Nat.shiftRight_eq_div_pow]

/-- The fields of a word put together from four bytes are those bytes (R37). -/
theorem fields_of_append (op rd rs0 rs1 : BitVec 8) :
    fieldOpcode (rs1 ++ rs0 ++ rd ++ op) = op ∧ fieldRd (rs1 ++ rs0 ++ rd ++ op) = rd ∧
      fieldRs0 (rs1 ++ rs0 ++ rd ++ op) = rs0 ∧ fieldRs1 (rs1 ++ rs0 ++ rd ++ op) = rs1 := by
  have := op.isLt
  have := rd.isLt
  have := rs0.isLt
  have := rs1.isLt
  refine ⟨?_, ?_, ?_, ?_⟩ <;> apply BitVec.eq_of_toNat_eq
  · rw [fieldOpcode, toNat_extractByte, toNat_append_bytes]; omega
  · rw [fieldRd, toNat_extractByte, toNat_append_bytes]; omega
  · rw [fieldRs0, toNat_extractByte, toNat_append_bytes]; omega
  · rw [fieldRs1, toNat_extractByte, toNat_append_bytes]; omega

/-- A word is its four fields side by side (R37). -/
theorem append_of_fields (w : Word) : fieldRs1 w ++ fieldRs0 w ++ fieldRd w ++ fieldOpcode w = w := by
  apply BitVec.eq_of_toNat_eq
  have := w.isLt
  rw [toNat_append_bytes, fieldOpcode, fieldRd, fieldRs0, fieldRs1, toNat_extractByte, toNat_extractByte,
    toNat_extractByte, toNat_extractByte]
  omega

/-- The word of `i` holds its opcode, rd, rs0 and rs1 in the fields of R37. -/
def Fields.Statement (i : Instr) : Prop :=
  fieldOpcode (encode i) = i.opcode ∧ fieldRd (encode i) = i.rd ∧ fieldRs0 (encode i) = i.rs0 ∧
    fieldRs1 (encode i) = i.rs1

theorem Fields.add (rd rs0 rs1 : Reg) : Fields.Statement (.add rd rs0 rs1) := fields_of_append _ _ _ _
theorem Fields.sub (rd rs0 rs1 : Reg) : Fields.Statement (.sub rd rs0 rs1) := fields_of_append _ _ _ _
theorem Fields.mul (rd rs0 rs1 : Reg) : Fields.Statement (.mul rd rs0 rs1) := fields_of_append _ _ _ _
theorem Fields.mulh (rd rs0 rs1 : Reg) : Fields.Statement (.mulh rd rs0 rs1) := fields_of_append _ _ _ _
theorem Fields.mulhu (rd rs0 rs1 : Reg) : Fields.Statement (.mulhu rd rs0 rs1) := fields_of_append _ _ _ _
theorem Fields.div (rd rs0 rs1 : Reg) : Fields.Statement (.div rd rs0 rs1) := fields_of_append _ _ _ _
theorem Fields.divu (rd rs0 rs1 : Reg) : Fields.Statement (.divu rd rs0 rs1) := fields_of_append _ _ _ _
theorem Fields.mod (rd rs0 rs1 : Reg) : Fields.Statement (.mod rd rs0 rs1) := fields_of_append _ _ _ _
theorem Fields.modu (rd rs0 rs1 : Reg) : Fields.Statement (.modu rd rs0 rs1) := fields_of_append _ _ _ _

end Sys2Proof.Laws
end

