-- ==== Sys2Proof/Laws/Decode.lean ====
section
/-! SUPPORT. The decoder, one lemma per outcome, and the bytes of a word. -/

namespace Sys2Proof.Laws

/-- At this machine's NREG every specifier names a register (R42). -/
theorem wf_all (i : Instr) : i.Wf := ⟨i.rd.isLt, i.rs0.isLt, i.rs1.isLt⟩

/-- The instruction a row builds has the row's opcode and mnemonic and the three operands. -/
theorem row_build {row : OpcodeRow} (h : row ∈ opcodeTable) (a b c : Reg) :
    (row.build a b c).opcode = row.opcode ∧ (row.build a b c).mnemonic = row.mnemonic ∧
      (row.build a b c).rd = a ∧ (row.build a b c).rs0 = b ∧ (row.build a b c).rs1 = c := by
  simp only [opcodeTable, List.mem_cons, List.not_mem_nil, or_false] at h
  rcases h with rfl | rfl | rfl | rfl | rfl | rfl | rfl | rfl | rfl <;> exact ⟨rfl, rfl, rfl, rfl, rfl⟩

/-- The row an instruction's opcode selects builds the instruction. -/
theorem row_of_instr (i : Instr) :
    ∃ row, opcodeTable.find? (fun row => row.opcode == i.opcode) = some row ∧
      row.build i.rd i.rs0 i.rs1 = i := by
  cases i <;> exact ⟨_, rfl, rfl⟩

/-- Everything the decoder can do when it accepts. -/
theorem decodeWord_ok {nreg : Nat} {w : Word} {i : Instr} (h : decodeWord nreg w = .ok i) :
    ∃ row ∈ opcodeTable, row.opcode = fieldOpcode w ∧
      i = row.build (fieldRd w) (fieldRs0 w) (fieldRs1 w) ∧ i.WfFor nreg := by
  unfold decodeWord at h
  split at h
  · cases h
  next row hr =>
    dsimp only at h
    split at h
    next hw =>
      cases h
      exact ⟨row, List.mem_of_find?_eq_some hr, by simpa using List.find?_some hr, rfl, hw⟩
    · cases h

/-- A word taken apart into bytes and put together again (R25). -/
theorem wordOfBytes_bytes (w : Word) :
    wordOfBytes (w.extractLsb' 0 8) (w.extractLsb' 8 8) (w.extractLsb' 16 8) (w.extractLsb' 24 8) = w :=
  append_of_fields w

/-- Four bytes put together and taken apart again (R25). -/
theorem bytesOfWord_wordOfBytes (b0 b1 b2 b3 : Byte) : bytesOfWord (wordOfBytes b0 b1 b2 b3) = [b0, b1, b2, b3] := by
  obtain ⟨h0, h1, h2, h3⟩ := fields_of_append b0 b1 b2 b3
  simp only [fieldOpcode, fieldRd, fieldRs0, fieldRs1] at h0 h1 h2 h3
  simp only [bytesOfWord, wordOfBytes, h0, h1, h2, h3]

end Sys2Proof.Laws
end

