-- ==== Sys2Proof/Laws/Operands.lean ====
section
/-! SUPPORT. The integer operations of 00_scope.md section 6 against the library's. -/

namespace Sys2Proof.Machine

/-- The spec's quotient toward zero is the library's truncating division. -/
theorem divT_eq_tdiv (a b : Int) : divT a b = a.tdiv b := by
  have abs_succ : ∀ n : Nat, |(n : Int) + 1| = n + 1 := fun n => abs_of_nonneg (by omega)
  rcases a with a | a <;> rcases b with b | b
  · rcases a with _ | a <;> rcases b with _ | b <;> simp [divT, Int.tdiv, Int.sign, abs_succ]
  · rcases a with _ | a <;> simp [divT, Int.tdiv, Int.sign, abs_succ]
  · rcases b with _ | b <;> simp [divT, Int.tdiv, Int.sign, abs_succ]
  · simp [divT, Int.tdiv, Int.sign]

/-- Its remainder is the library's truncating remainder. -/
theorem remT_eq_tmod (a b : Int) : remT a b = a.tmod b := by
  rw [remT, divT_eq_tdiv, Int.tmod_def]

/-- The unsigned value of trunc_32 (its definition in 00_scope.md section 6). -/
theorem unsigned_trunc32 (z : Int) : unsigned (trunc32 z) = z % 2 ^ 32 := by
  simp [unsigned, trunc32, BitVec.toNat_ofInt]; omega

/-- The unsigned reading is a natural number below 2^n. -/
theorem unsigned_bounds {n : Nat} (v : BitVec n) : 0 ≤ unsigned v ∧ unsigned v < 2 ^ n :=
  ⟨Int.natCast_nonneg _, by unfold unsigned; exact_mod_cast v.isLt⟩

/-- Two integers truncate to one word exactly when they agree modulo 2^32. -/
theorem trunc32_eq_iff (y z : Int) : trunc32 y = trunc32 z ↔ y % 2 ^ 32 = z % 2 ^ 32 := by
  rw [← unsigned_trunc32, ← unsigned_trunc32]
  simp [unsigned, BitVec.toNat_inj]

end Sys2Proof.Machine
end

