-- ==== Sys2Proof/Laws/Divide.lean ====
section
/-! SUPPORT. What each of the four divisions computes, corner by corner. -/

namespace Sys2Proof.Machine

variable {r : Rounding} {z o : CornerRule} {a b : Word}

theorem divResult_of_zero (h : signed b = 0) :
    divResult r z o a b = cornerResult z .divideByZero (Config.divZero a) := if_pos h

theorem divResult_of_overflow (h : IsOverflowPair a b) :
    divResult r z o a b = cornerResult o .divideOverflow Config.divOverflow :=
  (if_neg (by rw [h.2]; decide)).trans (if_pos h)

theorem divResult_of_fits (hz : signed b ≠ 0) (ho : ¬ IsOverflowPair a b) :
    divResult r z o a b = .ok (trunc32 (quotientBy r (signed a) (signed b))) :=
  (if_neg hz).trans (if_neg ho)

theorem divuResult_of_zero (h : unsigned b = 0) :
    divuResult z a b = cornerResult z .divideByZero (Config.divuZero a) := if_pos h

theorem divuResult_of_ne_zero (h : unsigned b ≠ 0) :
    divuResult z a b = .ok (trunc32 (divU (unsigned a) (unsigned b))) := if_neg h

theorem modResult_of_zero (h : signed b = 0) :
    modResult r z a b = cornerResult z .divideByZero (Config.modZero a) := if_pos h

theorem modResult_of_ne_zero (h : signed b ≠ 0) :
    modResult r z a b = .ok (trunc32 (remainderBy r (signed a) (signed b))) := if_neg h

theorem moduResult_of_zero (h : unsigned b = 0) :
    moduResult z a b = cornerResult z .divideByZero (Config.moduZero a) := if_pos h

theorem moduResult_of_ne_zero (h : unsigned b ≠ 0) :
    moduResult z a b = .ok (trunc32 (remU (unsigned a) (unsigned b))) := if_neg h

end Sys2Proof.Machine
end

