-- ==== Sys2Proof/Laws/State.lean ====
section
/-! SUPPORT. Each field of the state after each update: what the update writes and what it leaves. -/

namespace Sys2Proof.Machine

@[simp] theorem writeReg_pc (s : State) (r : Reg) (v : Word) : (writeReg s r v).pc = s.pc := rfl
@[simp] theorem writeReg_code (s : State) (r : Reg) (v : Word) : (writeReg s r v).code = s.code := rfl
@[simp] theorem writeReg_entry (s : State) (r : Reg) (v : Word) : (writeReg s r v).entry = s.entry := rfl
@[simp] theorem writeReg_codeEnd (s : State) (r : Reg) (v : Word) : (writeReg s r v).codeEnd = s.codeEnd := rfl
@[simp] theorem writeReg_regs (s : State) (r : Reg) (v : Word) :
    (writeReg s r v).regs = s.regs.set r.toNat v r.isLt := rfl
@[simp] theorem writeReg_unwritten (s : State) (r : Reg) (v : Word) :
    (writeReg s r v).unwritten = s.unwritten.set r.toNat false r.isLt := rfl

@[simp] theorem advancePc_pc (s : State) : (advancePc s).pc = s.pc + 4#32 := rfl
@[simp] theorem advancePc_regs (s : State) : (advancePc s).regs = s.regs := rfl
@[simp] theorem advancePc_unwritten (s : State) : (advancePc s).unwritten = s.unwritten := rfl
@[simp] theorem advancePc_code (s : State) : (advancePc s).code = s.code := rfl
@[simp] theorem advancePc_entry (s : State) : (advancePc s).entry = s.entry := rfl
@[simp] theorem advancePc_codeEnd (s : State) : (advancePc s).codeEnd = s.codeEnd := rfl
@[simp] theorem advancePc_reg (s : State) (r : Reg) : (advancePc s).reg r = s.reg r := rfl
@[simp] theorem advancePc_isUnwritten (s : State) (r : Reg) : (advancePc s).isUnwritten r = s.isUnwritten r := rfl

/-- Reading a file of 256 cells by specifier after one cell is set by specifier. -/
theorem getElem_set_reg {α : Type} (file : Vector α 256) (r r' : Reg) (v : α) :
    (file.set r.toNat v r.isLt)[r'.toNat]'r'.isLt = if r' = r then v else file[r'.toNat]'r'.isLt := by
  rw [Vector.getElem_set]
  by_cases h : r' = r
  · subst h; rw [if_pos rfl, if_pos rfl]
  · rw [if_neg h, if_neg (fun e => h (BitVec.eq_of_toNat_eq e.symm))]

/-- A written register holds the value, every other keeps its own (R12). -/
@[simp] theorem writeReg_reg (s : State) (r r' : Reg) (v : Word) :
    (writeReg s r v).reg r' = if r' = r then v else s.reg r' := getElem_set_reg s.regs r r' v

/-- A written register loses the launch's mark, every other keeps its own (R14). -/
@[simp] theorem writeReg_isUnwritten (s : State) (r r' : Reg) (v : Word) :
    (writeReg s r v).isUnwritten r' = if r' = r then false else s.isUnwritten r' :=
  getElem_set_reg s.unwritten r r' false

@[simp] theorem afterWrite_pc (s : State) (r : Reg) (v : Word) : (s.afterWrite r v).pc = s.pc + 4#32 := rfl
@[simp] theorem afterWrite_code (s : State) (r : Reg) (v : Word) : (s.afterWrite r v).code = s.code := rfl
@[simp] theorem afterWrite_entry (s : State) (r : Reg) (v : Word) : (s.afterWrite r v).entry = s.entry := rfl
@[simp] theorem afterWrite_codeEnd (s : State) (r : Reg) (v : Word) : (s.afterWrite r v).codeEnd = s.codeEnd := rfl
@[simp] theorem afterWrite_reg (s : State) (r r' : Reg) (v : Word) :
    (s.afterWrite r v).reg r' = if r' = r then v else s.reg r' := writeReg_reg s r r' v
@[simp] theorem afterWrite_isUnwritten (s : State) (r r' : Reg) (v : Word) :
    (s.afterWrite r v).isUnwritten r' = if r' = r then false else s.isUnwritten r' := writeReg_isUnwritten s r r' v

@[simp] theorem placeWord_pc (s : State) (w : Word) : (placeWord s w).pc = s.pc := by
  unfold placeWord; split <;> rfl
@[simp] theorem placeWord_regs (s : State) (w : Word) : (placeWord s w).regs = s.regs := by
  unfold placeWord; split <;> rfl
@[simp] theorem placeWord_unwritten (s : State) (w : Word) : (placeWord s w).unwritten = s.unwritten := by
  unfold placeWord; split <;> rfl

/-- Nothing is marked in a state whose marks are all down. -/
theorem AllWritten.isUnwritten {s : State} (h : s.AllWritten) (r : Reg) : s.isUnwritten r = false := h r.toNat r.isLt

end Sys2Proof.Machine
end

