-- ==== Sys2Proof/Laws/Ops.lean ====
section
/-! SUPPORT. What the shared operations can do: reading a register, the common steps of the nine (R51), a division
corner. -/

namespace Sys2Proof.Machine

theorem readReg_ok_iff {s : State} {r : Reg} {v : Word} :
    readReg s r = .ok v ↔ s.isUnwritten r = false ∧ s.reg r = v := by
  cases h : s.isUnwritten r <;> simp [readReg, h]

theorem readReg_error_iff {s : State} {r : Reg} {f : Fault} :
    readReg s r = .error f ↔ s.isUnwritten r = true ∧ f = .unwrittenRegister r := by
  cases h : s.isUnwritten r <;> simp [readReg, h]
  exact eq_comm

/-- A read of a register without the mark. -/
theorem readReg_of_written {s : State} {r : Reg} (h : s.isUnwritten r = false) : readReg s r = .ok (s.reg r) :=
  readReg_ok_iff.mpr ⟨h, rfl⟩

/-- Everything the common steps can do when they answer a next state. -/
theorem executeTType_next {compute : Word → Word → Except Fault Word} {rd rs0 rs1 : Reg} {s t : State}
    (h : executeTType compute rd rs0 rs1 s = .next t) :
    s.pc ≠ lastWordAddress ∧ s.isUnwritten rs0 = false ∧ s.isUnwritten rs1 = false ∧
      ∃ v, compute (s.reg rs0) (s.reg rs1) = .ok v ∧ t = s.afterWrite rd v := by
  unfold executeTType at h
  split at h
  · cases h
  next hpc =>
    split at h
    · cases h
    next a ha =>
      split at h
      · cases h
      next b hb =>
        obtain ⟨h0, rfl⟩ := readReg_ok_iff.mp ha
        obtain ⟨h1, rfl⟩ := readReg_ok_iff.mp hb
        split at h
        · cases h
        next v hv =>
          cases h
          exact ⟨hpc, h0, h1, v, hv, rfl⟩

/-- The common steps on readable sources away from the last word of the address space. -/
theorem executeTType_ready {compute : Word → Word → Except Fault Word} {rd rs0 rs1 : Reg} {s : State}
    (hpc : s.pc ≠ lastWordAddress) (h0 : s.isUnwritten rs0 = false) (h1 : s.isUnwritten rs1 = false) :
    executeTType compute rd rs0 rs1 s =
      match compute (s.reg rs0) (s.reg rs1) with
      | .error f => .fault f
      | .ok v => .next (s.afterWrite rd v) := by
  simp only [executeTType, if_neg hpc, readReg_of_written h0, readReg_of_written h1]
  rfl

/-- The common steps when the computation gives a value. -/
theorem executeTType_of_ok {compute : Word → Word → Except Fault Word} {rd rs0 rs1 : Reg} {s : State} {v : Word}
    (hpc : s.pc ≠ lastWordAddress) (h0 : s.isUnwritten rs0 = false) (h1 : s.isUnwritten rs1 = false)
    (hv : compute (s.reg rs0) (s.reg rs1) = .ok v) :
    executeTType compute rd rs0 rs1 s = .next (s.afterWrite rd v) := by
  rw [executeTType_ready hpc h0 h1, hv]

/-- The common steps at the last word of the address space (R17). -/
theorem executeTType_pcWrap {compute : Word → Word → Except Fault Word} {rd rs0 rs1 : Reg} {s : State}
    (hpc : s.pc = lastWordAddress) : executeTType compute rd rs0 rs1 s = .refused .pcWrap := if_pos hpc

/-- The common steps when rs0 carries the mark (R14, R75). -/
theorem executeTType_rs0_unwritten {compute : Word → Word → Except Fault Word} {rd rs0 rs1 : Reg} {s : State}
    (hpc : s.pc ≠ lastWordAddress) (h0 : s.isUnwritten rs0 = true) :
    executeTType compute rd rs0 rs1 s = .fault (.unwrittenRegister rs0) := by
  simp only [executeTType, if_neg hpc, readReg_error_iff.mpr ⟨h0, rfl⟩]

/-- The common steps when only rs1 carries the mark (R14, R75). -/
theorem executeTType_rs1_unwritten {compute : Word → Word → Except Fault Word} {rd rs0 rs1 : Reg} {s : State}
    (hpc : s.pc ≠ lastWordAddress) (h0 : s.isUnwritten rs0 = false) (h1 : s.isUnwritten rs1 = true) :
    executeTType compute rd rs0 rs1 s = .fault (.unwrittenRegister rs1) := by
  simp only [executeTType, if_neg hpc, readReg_of_written h0, readReg_error_iff.mpr ⟨h1, rfl⟩]

@[simp] theorem cornerResult_modelFault (f : Fault) (v : Word) : cornerResult .modelFault f v = .error f := rfl
@[simp] theorem cornerResult_freeValue (f : Fault) (v : Word) : cornerResult .freeValue f v = .ok v := rfl

end Sys2Proof.Machine
end

