-- ==== Sys2Proof/Laws/Exec.lean ====
section
/-! SUPPORT. exec as one computation on the source values: the result each instruction computes (step 3 of R51), and
exec as the common steps over it. -/

namespace Sys2Proof.Machine

/-- Step 3 of R51: what an instruction computes from the values of rs0 and rs1. -/
def resultOf : Instr → Word → Word → Except Fault Word
  | .add _ _ _ => fun a b => .ok (addResult a b)
  | .sub _ _ _ => fun a b => .ok (subResult a b)
  | .mul _ _ _ => fun a b => .ok (mulResult Config.mulLowSigned a b)
  | .mulh _ _ _ => fun a b => .ok (mulhResult a b)
  | .mulhu _ _ _ => fun a b => .ok (mulhuResult a b)
  | .div _ _ _ => divResult Config.sdivRounding Config.divZeroRule Config.divOverflowRule
  | .divu _ _ _ => divuResult Config.divZeroRule
  | .mod _ _ _ => modResult Config.sdivRounding Config.divZeroRule
  | .modu _ _ _ => moduResult Config.divZeroRule

/-- Every instruction is the common steps over its own computation. -/
theorem exec_eq_executeTType (i : Instr) (s : State) : exec i s = executeTType (resultOf i) i.rd i.rs0 i.rs1 s := by
  cases i <;> rfl

/-- With both corner rules set to free values every computation gives a value. -/
theorem resultOf_isOk (i : Instr) (a b : Word) : ∃ v, resultOf i a b = .ok v := by
  cases i <;>
    simp only [resultOf, divResult, divuResult, modResult, moduResult, Config.divZeroRule, Config.divOverflowRule,
      cornerResult_freeValue] <;>
    (try split) <;> (try split) <;> exact ⟨_, rfl⟩

/-- Everything exec can do when it answers a next state. -/
theorem exec_next {i : Instr} {s t : State} (h : exec i s = .next t) :
    s.Ready i ∧ ∃ v, resultOf i (s.reg i.rs0) (s.reg i.rs1) = .ok v ∧ t = s.afterWrite i.rd v := by
  rw [exec_eq_executeTType] at h
  obtain ⟨hpc, h0, h1, hv⟩ := executeTType_next h
  exact ⟨⟨hpc, h0, h1⟩, hv⟩

/-- exec on a ready state, once the computation is known. -/
theorem exec_of_ready {i : Instr} {s : State} {v : Word} (h : s.Ready i)
    (hv : resultOf i (s.reg i.rs0) (s.reg i.rs1) = .ok v) : exec i s = .next (s.afterWrite i.rd v) := by
  rw [exec_eq_executeTType]
  exact executeTType_of_ok h.1 h.2.1 h.2.2 hv

end Sys2Proof.Machine
end

