-- ==== Sys2Proof/Laws/Memory.lean ====
section
/-! SUPPORT. The code memory: reading after writing, and every memory operation keeps the canonical form. -/

namespace Sys2Proof.Machine

/-- A byte read after one byte is written. -/
theorem readByte_writeByte (m : Memory) (a a' : Nat) (b : Byte) (h : m.Pairwise (fun c d => c.1 < d.1)) :
    readByte (writeByte m a b) a' = if a' = a then some b else readByte m a' := by
  induction m with
  | nil => simp [writeByte, readByte, eq_comm]
  | cons c rest ih =>
    obtain ⟨k, x⟩ := c
    rw [List.pairwise_cons] at h
    simp only [writeByte]
    split
    · by_cases h' : a' = a
      · simp [readByte, h']
      · simp [readByte, h', Ne.symm h']
    · split
      · subst_vars
        by_cases h' : a' = k
        · simp [readByte, h']
        · simp [readByte, h', Ne.symm h']
      · simp only [readByte, ih h.2]
        by_cases h' : k = a' <;> by_cases h'' : a' = a <;> simp_all

/-- Where the addresses of memory after writing one byte come from. -/
theorem mem_writeByte {m : Memory} {a : Nat} {b : Byte} {c : Host.Cell} (h : c ∈ writeByte m a b) :
    c = (a, b) ∨ c ∈ m := by
  induction m with
  | nil => simpa [writeByte] using h
  | cons d rest ih =>
    simp only [writeByte] at h
    split at h
    · simpa using h
    · split at h
      · simp only [List.mem_cons] at h ⊢; tauto
      · rcases List.mem_cons.mp h with rfl | h
        · simp
        · rcases ih h with h | h <;> simp [h]

/-- Writing one byte keeps the addresses rising. -/
theorem writeByte_rising {m : Memory} {a : Nat} {b : Byte} (h : m.Pairwise (fun c d => c.1 < d.1)) :
    (writeByte m a b).Pairwise (fun c d => c.1 < d.1) := by
  induction m with
  | nil => simp [writeByte]
  | cons c rest ih =>
    rw [List.pairwise_cons] at h
    simp only [writeByte]
    split
    next hlt =>
      refine List.pairwise_cons.mpr ⟨fun d hd => ?_, List.pairwise_cons.mpr h⟩
      rcases List.mem_cons.mp hd with rfl | hd
      · exact hlt
      · exact hlt.trans (h.1 d hd)
    next hlt =>
      split
      next heq => exact List.pairwise_cons.mpr ⟨fun d hd => heq ▸ h.1 d hd, h.2⟩
      next hne =>
        refine List.pairwise_cons.mpr ⟨fun d hd => ?_, ih h.2⟩
        rcases mem_writeByte hd with rfl | hd
        · exact lt_of_le_of_ne (not_lt.mp hlt) (Ne.symm hne)
        · exact h.1 d hd

/-- Writing one byte below 2^32 keeps the canonical form. -/
theorem writeByte_wf {m : Memory} {a : Nat} {b : Byte} (h : Memory.wf m) (ha : a < 2 ^ 32) :
    Memory.wf (writeByte m a b) :=
  ⟨writeByte_rising h.1, fun c hc => (mem_writeByte hc).elim (fun e => e ▸ ha) (h.2 c)⟩

/-- Writing several bytes below 2^32 keeps the canonical form. -/
theorem writeBytes_wf {m : Memory} {a n : Nat} {v : BitVec (8 * n)} (h : Memory.wf m) (ha : a + n ≤ 2 ^ 32) :
    Memory.wf (writeBytes m a n v) := by
  induction n generalizing m a with
  | zero => exact h
  | succ n ih => exact ih (writeByte_wf h (by omega)) (by omega)

/-- A byte that several written bytes do not cover. -/
theorem readByte_writeBytes_outside {m : Memory} {a n x : Nat} {v : BitVec (8 * n)}
    (h : m.Pairwise (fun c d => c.1 < d.1)) (hx : x < a ∨ a + n ≤ x) :
    readByte (writeBytes m a n v) x = readByte m x := by
  induction n generalizing m a with
  | zero => rfl
  | succ n ih =>
    rw [writeBytes, ih (writeByte_rising h) (by omega), readByte_writeByte m a x _ h, if_neg (by omega)]

/-- memWrite answers exactly where every byte has an address. -/
theorem memWrite_eq_some {m m' : Memory} {a n : Nat} {v : BitVec (8 * n)} :
    memWrite m a n v = some m' ↔ a + n ≤ 2 ^ 32 ∧ m' = writeBytes m a n v := by
  unfold memWrite; split <;> simp_all [eq_comm]

end Sys2Proof.Machine
end

