-- ==== Sys2Proof/Laws/Fetch.lean ====
section
/-! SUPPORT. Fetching: when it reaches the decoder, and everything it says when it gives an instruction. -/

namespace Sys2Proof.Machine

/-- Reading four bytes makes a word of them, the first in bits 7:0 (R26). -/
theorem memRead_four {m : Memory} {a : Nat} {b0 b1 b2 b3 : Byte} (h0 : readByte m a = some b0)
    (h1 : readByte m (a + 1) = some b1) (h2 : readByte m (a + 2) = some b2) (h3 : readByte m (a + 3) = some b3) :
    memRead m a 4 = some (wordOfBytes b0 b1 b2 b3) := by
  have e : ∀ (x : BitVec (8 * 0)), ((((x ++ b3) ++ b2) ++ b1) ++ b0 : BitVec (8 * 0 + 8 + 8 + 8 + 8)).toNat =
      (wordOfBytes b0 b1 b2 b3).toNat := by
    intro x
    have : x.toNat = 0 := by have := x.isLt; omega
    rw [wordOfBytes, Laws.toNat_append_bytes, Laws.toNat_append_eq, Laws.toNat_append_eq, Laws.toNat_append_eq,
      Laws.toNat_append_eq, this]
    omega
  simp only [memRead, h0, h1, h2, h3]
  exact congrArg some (BitVec.eq_of_toNat_eq (e 0))

/-- A fetch at an aligned pc inside the code range whose bytes are there answers as the decoder does (R27, R28, R40). -/
theorem fetch_of_read {s : State} {w : Word} (h4 : s.pc.toNat % 4 = 0) (he : s.entry.toNat ≤ s.pc.toNat)
    (hl : s.pc.toNat + 4 ≤ s.codeEnd) (hm : memRead s.code s.pc.toNat 4 = some w) :
    fetch s = (decodeWord Config.nreg w).mapError refusalOfDecode := by
  unfold fetch
  rw [if_neg (by omega), if_neg (by omega), if_neg (by omega), hm]
  dsimp only
  cases decodeWord Config.nreg w <;> rfl

/-- Everything fetch says when it gives an instruction. -/
theorem fetch_ok {s : State} {i : Instr} (h : fetch s = .ok i) :
    s.pc.toNat % 4 = 0 ∧ s.entry.toNat ≤ s.pc.toNat ∧ s.pc.toNat + 4 ≤ s.codeEnd ∧
      ∃ w, memRead s.code s.pc.toNat 4 = some w ∧ decodeWord Config.nreg w = .ok i := by
  unfold fetch at h
  split at h
  · cases h
  · split at h
    · cases h
    · split at h
      · cases h
      · split at h
        · cases h
        next w hw =>
          split at h
          next j hj =>
            cases h
            exact ⟨by omega, by omega, by omega, w, hw, hj⟩
          · cases h

/-- A step that answers a next state is the execution of a fetched instruction. -/
theorem step_next {s t : State} (h : step s = .next t) : ∃ i, fetch s = .ok i ∧ exec i s = .next t := by
  unfold step at h
  split at h
  · cases h
  next i hi => exact ⟨i, hi, h⟩

end Sys2Proof.Machine
end

