-- ==== Sys2Proof/Laws/Step.lean ====
section
/-! SUPPORT. Runs of the machine, one step at a time. -/

namespace Sys2Proof.Machine

/-- A run of any machine goes on with the state its first step answers. -/
theorem run_succ_of_next (M : Host.Core) {k : Nat} {s s' : M.State} (h : M.step s = .next s') :
    M.run (k + 1) s = M.run k s' := by
  simp only [Host.Core.run, h]

/-- A run of any machine that answers a next state took a first step to one. -/
theorem run_succ_next (M : Host.Core) {k : Nat} {s t : M.State} (h : M.run (k + 1) s = .next t) :
    ∃ s', M.step s = .next s' ∧ M.run k s' = .next t := by
  simp only [Host.Core.run] at h
  split at h
  next s' hs => exact ⟨s', hs, h⟩
  · cases h
  · cases h

/-- This machine's run goes on with the state its first step answers. -/
theorem coreRun_of_next {k : Nat} {s s' : State} (h : step s = .next s') :
    Host.Core.run Sys2Proof.core (k + 1) s = Host.Core.run Sys2Proof.core k s' :=
  run_succ_of_next Sys2Proof.core h

/-- This machine's run that answers a next state took a first step to one. -/
theorem coreRun_next {k : Nat} {s t : State} (h : Host.Core.run Sys2Proof.core (k + 1) s = .next t) :
    ∃ s', step s = .next s' ∧ Host.Core.run Sys2Proof.core k s' = .next t :=
  run_succ_next Sys2Proof.core h

end Sys2Proof.Machine
end

