-- ==== Sys2Proof/Tests/Slice0.lean ====
section
/-! SUPPORT. Tests on values that spec/95_test_vectors.md and spec/30_encoding.md give (each test names the section), and a
witness for the hypotheses of each statement. -/

namespace Sys2Proof.Tests

open Sys2Proof.Machine

/-! ### Helpers -/

/-- x[0], x[1] and x[2] given, every other register 0, pc at 0x1000, no program text. -/
def sample (x0 x1 x2 : Word) : State :=
  { State.reset with
    regs := ((State.reset.regs.set 0 x0).set 1 x1).set 2 x2
    pc := 0x1000#32
    entry := 0x1000#32
    codeEnd := 0x1000 }

/-- The value of a register in the next state, if there is one. -/
def regAfter (o : Host.Outcome State Fault Refusal) (r : Reg) : Option Word :=
  match o with
  | .next t => some (t.reg r)
  | .fault _ | .refused _ => none

/-- pc in the next state, if there is one. -/
def pcAfter (o : Host.Outcome State Fault Refusal) : Option Word :=
  match o with
  | .next t => some t.pc
  | .fault _ | .refused _ => none

/-- The fault, if there is one. -/
def faultOf (o : Host.Outcome State Fault Refusal) : Option Fault :=
  match o with
  | .fault f => some f
  | .next _ | .refused _ => none

/-- The refusal, if there is one. -/
def refusalOf (o : Host.Outcome State Fault Refusal) : Option Refusal :=
  match o with
  | .refused r => some r
  | .next _ | .fault _ => none

/-- `s` with the launch's mark on one register. -/
def marked (s : State) (r : Reg) : State := { s with unwritten := s.unwritten.set r.toNat true r.isLt }

/-- Two words of text at 0: `ADD r0, r1, r2` and `DIVU r0, r1, r2`. -/
def twoWords : State :=
  launch 0#32 (programText [.add 0 1 2, .divu 0 1 2]) (sample 0 5 7).regs (sample 0 5 7).unwritten

/-! ### WellFormed smoke (95_test_vectors.md 2.1, NREG = 16) -/

theorem test_wf_rs1_out_of_range : ¬ (Instr.add 0 1 16).WfFor 16 := by decide
theorem test_wf_rs0_out_of_range : ¬ (Instr.add 0 16 1).WfFor 16 := by decide
theorem test_wf_rd_out_of_range : ¬ (Instr.add 16 0 1).WfFor 16 := by decide
theorem test_wf_nearest_accepted : (Instr.add 0 1 15).WfFor 16 := by decide
theorem test_wf_at_default_nreg : (Instr.add 255 255 255).Wf := by decide

/-! ### Decoding: words written out bit by bit as rs1, rs0, rd, opcode (30_encoding.md R37; 95_test_vectors.md 1 and 2.1) -/

theorem test_decode_add : decodeTableWord 32 0b00000010_00000001_00000000_00001111 = some (.add 0 1 2) := by decide
theorem test_decode_sub : decodeTableWord 32 0b00000011_00000010_00000001_00001110 = some (.sub 1 2 3) := by decide
theorem test_decode_mul : decodeTableWord 32 0b00000001_00000000_00000010_00010000 = some (.mul 2 0 1) := by decide
theorem test_decode_mulh : decodeTableWord 32 0b00000010_00000001_00000000_00010001 = some (.mulh 0 1 2) := by decide
theorem test_decode_mulhu : decodeTableWord 32 0b00000000_00000001_00000000_00010010 = some (.mulhu 0 1 0) := by decide
theorem test_decode_div : decodeTableWord 32 0b01100100_11001000_00000111_00010011 = some (.div 7 200 100) := by decide
theorem test_decode_divu : decodeTableWord 32 0b00000010_00000001_00000000_00010100 = some (.divu 0 1 2) := by decide
theorem test_decode_mod : decodeTableWord 32 0b00000000_00000001_00000000_00010101 = some (.mod 0 1 0) := by decide
theorem test_decode_modu : decodeTableWord 32 0b01010110_00110100_00010010_00010110 = some (.modu 18 52 86) := by decide
theorem test_decode_refuses_0D : decodeWord Config.nreg 0x0201000D = .error (.opcodeNotInScope 0x0D) := by decide
theorem test_decode_refuses_17 : decodeWord Config.nreg 0x02010017 = .error (.opcodeNotInScope 0x17) := by decide
theorem test_decode_refuses_00 : decodeWord Config.nreg 0x00000000 = .error (.opcodeNotInScope 0x00) := by decide
theorem test_decode_refuses_FF : decodeWord Config.nreg 0xFFFFFFFF = .error (.opcodeNotInScope 0xFF) := by decide
theorem test_decode_refuses_r16_of_16 : decodeWord 16 0x1001000F = .error .registerOutOfRange := by decide
theorem test_decode_accepts_r15_of_16 : decodeWord 16 0x0F01000F = .ok (.add 0 1 15) := by decide
theorem test_decode_truncated : decode [0x0F, 0x00, 0x01] = .error .truncated := by decide
theorem test_table_rows_distinct : (opcodeTable.map (·.opcode)).Nodup := by decide

/-! ### The nine instructions, at most two vectors each (95_test_vectors.md 2.2 to 2.7) -/

theorem test_add_signed_overflow_wraps :
    regAfter (exec (.add 0 1 2) (sample 0 0x7FFFFFFF 1)) 0 = some 0x80000000 := by decide
theorem test_add_all_same_register :
    regAfter (exec (.add 0 0 0) (sample 0x80000001 0 0)) 0 = some 0x00000002 := by decide
theorem test_sub_borrows : regAfter (exec (.sub 0 1 2) (sample 0 3 5)) 0 = some 0xFFFFFFFE := by decide
theorem test_sub_old_destination : regAfter (exec (.sub 0 1 0) (sample 5 7 0)) 0 = some 2 := by decide
theorem test_mul_upper_halves_ignored :
    regAfter (exec (.mul 0 1 2) (sample 0 0xABCD0003 0x12340005)) 0 = some 0x0000000F := by decide
theorem test_mul_unsigned_halves :
    regAfter (exec (.mul 0 1 2) (sample 0 0x0000FFFF 0x00007FFF)) 0 = some 0x7FFE8001 := by decide
theorem test_mulh_smallest :
    regAfter (exec (.mulh 0 1 2) (sample 0 0x80000000 0x7FFF0000)) 0 = some 0xC0008000 := by decide
theorem test_mulh_mixed :
    regAfter (exec (.mulh 0 1 2) (sample 0 0x12345678 0x9ABCDEF0)) 0 = some 0xF8CCA630 := by decide
theorem test_mulhu_largest :
    regAfter (exec (.mulhu 0 1 2) (sample 0 0xFFFF0000 0xFFFF0000)) 0 = some 0xFFFE0001 := by decide
theorem test_mulhu_mixed :
    regAfter (exec (.mulhu 0 1 2) (sample 0 0x12345678 0x9ABCDEF0)) 0 = some 0x0B00A630 := by decide
theorem test_div_toward_zero :
    regAfter (exec (.div 0 1 2) (sample 0 0xFFFFFC18 7)) 0 = some 0xFFFFFF72 := by decide
theorem test_div_old_destination_is_divisor : regAfter (exec (.div 0 1 0) (sample 2 7 0)) 0 = some 3 := by decide
theorem test_divu_large_dividend :
    regAfter (exec (.divu 0 1 2) (sample 0 0xFFFFFFF9 2)) 0 = some 0x7FFFFFFC := by decide
theorem test_divu_overflow_pair :
    regAfter (exec (.divu 0 1 2) (sample 0 0x80000000 0xFFFFFFFF)) 0 = some 0 := by decide
theorem test_mod_takes_dividend_sign :
    regAfter (exec (.mod 0 1 2) (sample 0 0xFFFFFFF9 0xFFFFFFFE)) 0 = some 0xFFFFFFFF := by decide
theorem test_mod_overflow_pair :
    regAfter (exec (.mod 0 1 2) (sample 0 0x80000000 0xFFFFFFFF)) 0 = some 0 := by decide
theorem test_modu_dividend_smaller :
    regAfter (exec (.modu 0 1 2) (sample 0 0xFFFFFFF9 0xFFFFFFFE)) 0 = some 0xFFFFFFF9 := by decide
theorem test_modu_half_word : regAfter (exec (.modu 0 1 2) (sample 0 0xFFFFFFFF 0x00010000)) 0 = some 0x0000FFFF := by
  decide

/-! The parameters' other settings (95_test_vectors.md 2.4 and 2.6, the columns of the alternatives). -/

theorem test_mul_signed_halves : mulResult true 0x0000FFFF 0x00007FFF = 0xFFFF8001 := by decide
theorem test_quotient_toward_minus_infinity :
    quotientBy .towardMinusInfinity 7 (-2) = -4 ∧ remainderBy .towardMinusInfinity 7 (-2) = -1 := by decide
theorem test_quotient_euclidean : quotientBy .euclidean (-7) (-2) = 4 ∧ remainderBy .euclidean (-7) (-2) = 1 := by
  decide
theorem test_default_zero_divisor :
    divResult .towardZero .modelFault .modelFault 5 0 = .error .divideByZero := by decide
theorem test_default_overflow_pair :
    divResult .towardZero .modelFault .modelFault 0x80000000 0xFFFFFFFF = .error .divideOverflow := by decide

/-! A zero divisor completes here; the value is free, so only pc is looked at (R76, log entry 7). -/

theorem test_zero_divisor_completes : pcAfter (exec (.div 0 1 2) (sample 0 5 0)) = some 0x1004 := by decide

/-! ### Faults and refusals (95_test_vectors.md 2.8) -/

theorem test_marked_rs1 :
    faultOf (exec (.add 0 1 2) (marked (sample 0 1 0) 2)) = some (.unwrittenRegister 2) := by decide
theorem test_marked_both_reports_rs0 :
    faultOf (exec (.add 0 1 2) (marked (marked (sample 0 0 0) 2) 1)) = some (.unwrittenRegister 1) := by decide
theorem test_marked_destination_completes :
    regAfter (exec (.add 2 0 1) (marked (sample 3 4 0) 2)) 2 = some 7 := by decide
theorem test_misaligned_pc : refusalOf (step { twoWords with pc := 2 }) = some .misalignedPc := by decide
theorem test_run_complete : refusalOf (step { twoWords with pc := 8 }) = some .runComplete := by decide
theorem test_pc_past_end : refusalOf (step { twoWords with pc := 12 }) = some .fetchOutsideCode := by decide
theorem test_pc_wrap :
    refusalOf (step (State.withFetchWord { twoWords with pc := 0xFFFFFFFC } 32 0x0201000F)) = some .pcWrap := by decide
theorem test_opcode_not_in_scope :
    refusalOf (step (State.reset.withFetchWord 32 0x02010017)) = some (.opcodeNotInScope 0x17) := by decide

/-! ### One step from fetched bytes -/

theorem test_step_runs_text : regAfter (step twoWords) 0 = some 0x0000000C ∧ pcAfter (step twoWords) = some 4 := by
  decide
theorem test_first_instruction_after_reset : pcAfter (step (State.reset.withFetchWord 32 0x0201000F)) = some 4 := by
  decide

/-! ### The transcriber (30_encoding.md R46 to R49) -/

theorem test_asm_form : parseLine "ADD r0, r1, r2".toList = .ok (.instruction (.add 0 1 2)) := by decide
theorem test_asm_template : parseLine "MULHU r0, r1 r2".toList = .ok (.instruction (.mulhu 0 1 2)) := by decide
theorem test_asm_comment : parseLine "; r0 = r1 + r2".toList = .ok .comment := by decide
theorem test_asm_lower_case_refused : parseLine "add r0, r1, r2".toList = .error .unknownMnemonic := by decide
theorem test_asm_register_refused : parseLine "ADD r0, r1, r256".toList = .error .badRegister := by decide
theorem test_asm_leading_zero_refused : parseLine "ADD r00, r1, r2".toList = .error .badSeparator := by decide
theorem test_asm_first_comma_needed : parseLine "ADD r0 r1, r2".toList = .error .badSeparator := by decide
theorem test_asm_trailing_text_refused : parseLine "ADD r0, r1, r2 ".toList = .error .trailingText := by decide
theorem test_asm_print : printInstr (.modu 18 52 86) = "MODU r18, r52, r86".toList := by decide

/-! ### Witnesses: a concrete input that meets the hypotheses of each statement, clause by clause -/

theorem witness_DecodeOfEncodeGivesInstruction : (Instr.add 0 1 15).WfFor 16 := by decide
theorem witness_EncodeOfDecodeGivesWord : decodeWord 16 0x0F01000F = .ok (.add 0 1 15) := by decide
theorem witness_EveryInstructionIsFourBytes :
    decode [0x0F, 0x00, 0x01, 0x02, 0xAA] = .ok (.add 0 1 2, [0xAA]) ∧ ([0x0F, 0x00, 0x01] : List Byte).length < 4 := by
  decide
theorem witness_OpcodeFieldSelectsInstruction :
    fieldOpcode 0x0000000E = 0x0E#8 ∧ fieldOpcode 0x0000000F = 0x0F#8 ∧ fieldOpcode 0xFF000010 = 0x10#8 ∧
      fieldOpcode 0xFFFFFF11 = 0x11#8 ∧ fieldOpcode 0x02010012 = 0x12#8 ∧ fieldOpcode 0x02010013 = 0x13#8 ∧
      fieldOpcode 0x02010014 = 0x14#8 ∧ fieldOpcode 0x02010015 = 0x15#8 ∧ fieldOpcode 0xFFFFFF16 = 0x16#8 := by
  decide
theorem witness_DecoderVerdictOnEveryWord :
    (fieldOpcode 0x0201000D).toNat < 0x0E ∧ 0x16 < (fieldOpcode 0x02010017).toNat ∧
      (0x0E ≤ (fieldOpcode 0x1001000E).toNat ∧ 16 ≤ (fieldRs1 0x1001000E).toNat) ∧
      ((fieldOpcode 0x0F0F0F16).toNat ≤ 0x16 ∧ (fieldRd 0x0F0F0F16).toNat < 16 ∧ (fieldRs0 0x0F0F0F16).toNat < 16 ∧
        (fieldRs1 0x0F0F0F16).toNat < 16) := by
  decide
theorem witness_StepRunsDecodedInstruction :
    twoWords.pc.toNat % 4 = 0 ∧ twoWords.entry.toNat ≤ twoWords.pc.toNat ∧ twoWords.pc.toNat + 4 ≤ twoWords.codeEnd ∧
      readByte twoWords.code twoWords.pc.toNat = some 0x0F ∧ readByte twoWords.code (twoWords.pc.toNat + 1) = some 0x00 ∧
      readByte twoWords.code (twoWords.pc.toNat + 2) = some 0x01 ∧
      readByte twoWords.code (twoWords.pc.toNat + 3) = some 0x02 ∧
      decode [0x0F, 0x00, 0x01, 0x02] = .ok (.add 0 1 2, []) := by
  decide
theorem witness_PlacedWordRunsNext :
    twoWords.code.Pairwise (fun c d => c.1 < d.1) ∧ twoWords.pc.toNat % 4 = 0 := by decide
theorem witness_StepStopsBeforeExecution_complete : ({ twoWords with pc := 8 } : State).pc.toNat = twoWords.codeEnd := by decide
theorem witness_StepStopsBeforeExecution_misaligned :
    ({ twoWords with pc := 2 } : State).pc.toNat ≠ twoWords.codeEnd ∧
      ({ twoWords with pc := 2 } : State).pc.toNat % 4 ≠ 0 := by decide
theorem witness_StepStopsBeforeExecution_outside :
    ({ twoWords with pc := 12 } : State).pc.toNat ≠ twoWords.codeEnd ∧
      ({ twoWords with pc := 12 } : State).pc.toNat % 4 = 0 ∧
      twoWords.codeEnd < ({ twoWords with pc := 12 } : State).pc.toNat ∧
      ({ twoWords with entry := 4 } : State).pc.toNat ≠ twoWords.codeEnd ∧
      ({ twoWords with entry := 4 } : State).pc.toNat % 4 = 0 ∧
      ({ twoWords with entry := 4 } : State).pc.toNat < ({ twoWords with entry := 4 } : State).entry.toNat := by decide
theorem witness_StepStopsBeforeExecution_hole :
    ({ twoWords with code := [] } : State).pc.toNat ≠ twoWords.codeEnd ∧
      ({ twoWords with code := [] } : State).pc.toNat % 4 = 0 ∧
      readByte ({ twoWords with code := [] } : State).code (twoWords.pc.toNat + 3) = none := by decide
theorem witness_StepStopsBeforeExecution_opcode :
    (State.reset.withFetchWord 32 0x02010017).pc.toNat % 4 = 0 ∧
      (State.reset.withFetchWord 32 0x02010017).entry.toNat ≤ (State.reset.withFetchWord 32 0x02010017).pc.toNat ∧
      (State.reset.withFetchWord 32 0x02010017).pc.toNat + 4 ≤ (State.reset.withFetchWord 32 0x02010017).codeEnd ∧
      memRead (State.reset.withFetchWord 32 0x02010017).code 0 4 = some 0x02010017#32 ∧
      0x16 < (fieldOpcode 0x02010017).toNat ∧
      memRead (State.reset.withFetchWord 32 0x0201000D).code 0 4 = some 0x0201000D#32 ∧
      (fieldOpcode 0x0201000D).toNat < 0x0E := by decide
theorem witness_LastWordOfAddressSpaceRefused : ({ twoWords with pc := 0xFFFFFFFC } : State).pc = 0xFFFFFFFC#32 := by
  decide
theorem witness_MarkedSourceFaults :
    (sample 0 1 2).pc ≠ 0xFFFFFFFC#32 ∧ (marked (sample 0 1 2) 1).isUnwritten 1 = true ∧
      (marked (sample 0 1 2) 255).isUnwritten 254 = false ∧ (marked (sample 0 1 2) 255).isUnwritten 255 = true := by
  decide
theorem witness_AddWritesSumModuloWord : (sample 1 2 3).Ready (.add 0 1 2) := by decide
theorem witness_SubWritesDifferenceModuloWord : (sample 1 2 3).Ready (.sub 0 0 0) := by decide
theorem witness_MulWritesProductOfLowerHalves : (sample 1 2 3).Ready (.mul 255 1 2) := by decide
theorem witness_MulhWritesSignedProductOfUpperHalves : (sample 1 2 3).Ready (.mulh 1 1 2) := by decide
theorem witness_MulhuWritesUnsignedProductOfUpperHalves : (sample 1 2 3).Ready (.mulhu 2 1 2) := by decide
theorem witness_DivWritesSignedQuotient :
    (sample 1 0x80000000 1).Ready (.div 0 1 2) ∧ signed ((sample 1 0x80000000 1).reg 2) ≠ 0 ∧
      ¬(signed ((sample 1 0x80000000 1).reg 1) = -(2 ^ 31) ∧ signed ((sample 1 0x80000000 1).reg 2) = -1) := by decide
theorem witness_DivuWritesUnsignedQuotient : (sample 1 2 3).Ready (.divu 0 1 2) ∧ unsigned ((sample 1 2 3).reg 2) ≠ 0 := by decide
theorem witness_ModWritesSignedRemainder :
    (sample 1 0x80000000 0xFFFFFFFF).Ready (.mod 0 1 2) ∧ signed ((sample 1 0x80000000 0xFFFFFFFF).reg 2) ≠ 0 ∧
      signed ((sample 1 0x80000000 0xFFFFFFFF).reg 1) = -(2 ^ 31) ∧
      signed ((sample 1 0x80000000 0xFFFFFFFF).reg 2) = -1 := by decide
theorem witness_ModuWritesUnsignedRemainder : (sample 1 2 3).Ready (.modu 0 1 2) ∧ unsigned ((sample 1 2 3).reg 2) ≠ 0 := by decide
theorem witness_ZeroDivisorWritesFreeValue :
    (sample 1 2 0).pc ≠ 0xFFFFFFFC#32 ∧ (sample 1 2 0).isUnwritten 1 = false ∧ (sample 1 2 0).isUnwritten 2 = false ∧
      (sample 1 2 0).reg 2 = 0#32 := by decide
theorem witness_OverflowPairWritesFreeValue :
    (sample 1 0x80000000 0xFFFFFFFF).pc ≠ 0xFFFFFFFC#32 ∧ (sample 1 0x80000000 0xFFFFFFFF).isUnwritten 1 = false ∧
      (sample 1 0x80000000 0xFFFFFFFF).isUnwritten 2 = false ∧
      (sample 1 0x80000000 0xFFFFFFFF).reg 1 = 0x80000000#32 ∧
      (sample 1 0x80000000 0xFFFFFFFF).reg 2 = 0xFFFFFFFF#32 := by decide
theorem witness_ResultComesFromOldSourceValues :
    (⟨0x0E#8, "SUB", .sub⟩ : OpcodeRow) ∈ opcodeTable ∧ (sample 5 7 0).Ready (.sub 0 1 0) ∧
      (sample 0 7 5).Ready (.sub 9 1 2) ∧ (sample 5 7 0).reg 1 = (sample 0 7 5).reg 1 ∧
      (sample 5 7 0).reg 0 = (sample 0 7 5).reg 2 :=
  ⟨List.mem_cons_self, by decide, by decide, by decide, by decide⟩
theorem witness_FrameOfAllNineInstructions :
    (pcAfter (exec (.add 0 1 2) (sample 0 5 7))).isSome = true := by decide
theorem witness_OnlyFetchReadsMemory :
    (pcAfter (exec (.add 0 1 2) twoWords)).isSome = true ∧ (faultOf (exec (.add 0 1 2) (marked twoWords 1))).isSome = true ∧
      (refusalOf (exec (.add 0 1 2) { twoWords with pc := 0xFFFFFFFC })).isSome = true ∧
      ∀ k, k < 4 → readByte (twoWords.code ++ [(100, 7)]) (twoWords.pc.toNat + k) =
        readByte twoWords.code (twoWords.pc.toNat + k) := by decide
theorem witness_RegisterHoldsLastWrite : (1 : Reg) ≠ 0 := by decide
theorem witness_LaunchMeetsInvariant :
    (0xFFFFFFF8#32).toNat % 4 = 0 ∧ (programText [.add 0 1 2]).length % 4 = 0 ∧
      (0xFFFFFFF8#32).toNat + (programText [.add 0 1 2]).length ≤ 2 ^ 32 - 4 := by decide
theorem witness_StepKeepsInvariant : twoWords.Inv ∧ (pcAfter (step twoWords)).isSome = true := by decide
theorem witness_UnmarkedStatesNeverFault : twoWords.AllWritten := by
  intro n h
  simp [twoWords, launch, sample, State.reset]
theorem witness_RunReachesEnd : twoWords.Inv ∧ twoWords.TextDecodes ∧ twoWords.AllWritten :=
  ⟨by decide, by decide, witness_UnmarkedStatesNeverFault⟩
theorem witness_EveryRunEnds : twoWords.Inv ∧ State.reset.Inv := by decide
theorem witness_RunAdvancesPcByFourPerStep :
    ∃ t, Host.Core.run Sys2Proof.core 1 twoWords = .next t := ⟨_, rfl⟩
theorem witness_MemReadAfterMemWrite :
    ([] : Memory).Pairwise (fun c d => c.1 < d.1) ∧
      (memWrite [] 0xFFFFFFFC 4 (0x0201000F : BitVec (8 * 4))).isSome = true ∧
      (memWrite [] 0xFFFFFFFD 4 (0x0201000F : BitVec (8 * 4))).isSome = false := by decide
theorem witness_MemWriteKeepsCanonicalForm :
    Memory.wf twoWords.code ∧ (memWrite twoWords.code 2 4 (0 : BitVec (8 * 4))).isSome = true := by decide
theorem witness_MultipliesIgnoreOtherHalf :
    lowerHalf 0xABCD0003 = lowerHalf 0x00000003 ∧ upperHalf 0x0003FFFF = upperHalf 0x00030000 := by decide
theorem witness_MulReadingsAgreeInLowBits : (0xFFFF7FFF : Word).getLsbD 15 = false := by decide
theorem witness_RoundingConventionsAgreeOnDomain :
    ((0 : Int) ≤ 7 ∧ (0 : Int) < 2) ∧ ((-3 : Int) ∣ 6) ∧ 0 ≤ signed (0x7FFFFFFF : Word) ∧
      0 < signed (1 : Word) := by decide
theorem witness_QuotientAndRemainderRebuildDividend :
    (7 : Word) ≠ 0#32 ∧ ¬ IsOverflowPair 0xFFFFFC18 7 ∧
      divResult Config.sdivRounding Config.divZeroRule Config.divOverflowRule 0xFFFFFC18 7 = .ok 0xFFFFFF72 ∧
      modResult Config.sdivRounding Config.divZeroRule 0xFFFFFC18 7 = .ok 0xFFFFFFFA ∧
      divuResult Config.divZeroRule 0x000003E8 7 = .ok 0x0000008E ∧
      moduResult Config.divZeroRule 0x000003E8 7 = .ok 0x00000006 := by decide

end Sys2Proof.Tests
end

section
/-! Memory and the instructions (R23): execution does not depend on CODE, and the fetch depends on four bytes of it. -/

namespace Sys2Proof.Machine

/-- An outcome with CODE replaced in its next state, where it has one. -/
def overMemory (c : Memory) : Host.Outcome State Fault Refusal → Host.Outcome State Fault Refusal
  | .next t => .next { t with code := c }
  | .fault f => .fault f
  | .refused r => .refused r

/-- Registers are read the same over any CODE. -/
@[simp] theorem reg_withCode (s : State) (c : Memory) (r : Reg) : { s with code := c }.reg r = s.reg r := rfl

/-- The common steps of the nine do not depend on CODE (R23, R51). -/
theorem executeTType_overMemory (compute : Word → Word → Except Fault Word) (rd rs0 rs1 : Reg) (s : State)
    (c : Memory) :
    executeTType compute rd rs0 rs1 { s with code := c } = overMemory c (executeTType compute rd rs0 rs1 s) := by
  by_cases hpc : s.pc = lastWordAddress
  · rw [executeTType_pcWrap hpc]
    exact executeTType_pcWrap hpc
  cases h0 : s.isUnwritten rs0 with
  | true =>
    rw [executeTType_rs0_unwritten hpc h0]
    exact executeTType_rs0_unwritten hpc h0
  | false =>
    cases h1 : s.isUnwritten rs1 with
    | true =>
      rw [executeTType_rs1_unwritten hpc h0 h1]
      exact executeTType_rs1_unwritten hpc h0 h1
    | false =>
      have h := executeTType_ready (compute := compute) (rd := rd) (s := { s with code := c }) hpc h0 h1
      simp only [h, executeTType_ready hpc h0 h1, reg_withCode]
      cases compute (s.reg rs0) (s.reg rs1) <;> rfl

/-- No instruction's outcome depends on CODE (R23). -/
theorem exec_overMemory (i : Instr) (s : State) (c : Memory) :
    exec i { s with code := c } = overMemory c (exec i s) := by
  simp only [exec_eq_executeTType, executeTType_overMemory]

/-- No instruction changes CODE (R23). -/
theorem exec_next_code {i : Instr} {s t : State} (h : exec i s = .next t) : t.code = s.code := by
  obtain ⟨-, v, -, rfl⟩ := exec_next h
  exact afterWrite_code s i.rd v

/-- Memories that agree on the bytes read give the same value. -/
theorem memRead_congr {m m' : Memory} {a n : Nat} (h : ∀ k, k < n → readByte m (a + k) = readByte m' (a + k)) :
    memRead m a n = memRead m' a n := by
  induction n generalizing a with
  | zero => rfl
  | succ n ih =>
    have first : readByte m a = readByte m' a := h 0 n.succ_pos
    have others : memRead m (a + 1) n = memRead m' (a + 1) n :=
      ih fun k hk => by rw [Nat.add_right_comm]; exact h (k + 1) (Nat.succ_lt_succ hk)
    simp only [memRead, first, others]

/-- The fetch depends on the four bytes at pc and on no other byte of CODE (R23). -/
theorem fetch_congr_code {s : State} {c : Memory}
    (h : ∀ k, k < 4 → readByte c (s.pc.toNat + k) = readByte s.code (s.pc.toNat + k)) :
    fetch { s with code := c } = fetch s := by
  simp only [fetch, memRead_congr h]

/-- Settles O29: the common steps look at pc, marks and registers alone, and the fetch at CODE through one read of four
bytes. -/
theorem onlyFetchReadsMemory : Obligations.OnlyFetchReadsMemory := by
  intro s c
  refine ⟨fun i t h => ⟨exec_next_code h, ?_⟩, fun i f h => ?_, fun i r h => ?_, fetch_congr_code⟩ <;>
    rw [exec_overMemory, h] <;> rfl

end Sys2Proof.Machine
end

section
/-! The decoder over the opcode map (R35, R39): which row it takes, and which bytes it takes. -/

namespace Sys2Proof.Laws

/-- No two rows of the opcode map share an opcode: the search for a row's opcode finds that row (R39). -/
theorem find_row {row : OpcodeRow} (h : row ∈ opcodeTable) :
    opcodeTable.find? (fun r => r.opcode == row.opcode) = some row := by
  simp only [opcodeTable, List.mem_cons, List.not_mem_nil, or_false] at h
  rcases h with rfl | rfl | rfl | rfl | rfl | rfl | rfl | rfl | rfl <;> rfl

/-- A word with a row's opcode decodes by that row; at this machine's NREG no specifier is refused (R39, R40, R42). -/
theorem decodeWord_of_row {row : OpcodeRow} (hrow : row ∈ opcodeTable) {w : Word} (hop : fieldOpcode w = row.opcode) :
    decodeWord Config.nreg w = .ok (row.build (fieldRd w) (fieldRs0 w) (fieldRs1 w)) := by
  simp only [decodeWord, hop, find_row hrow]
  exact if_pos (wf_all _)

/-- The decoded instruction has the mnemonic of the row its opcode selects (R39). -/
theorem mnemonic_of_row {w : Word} (row : OpcodeRow) (hrow : row ∈ opcodeTable) (hop : fieldOpcode w = row.opcode) :
    (decodeWord Config.nreg w).map Instr.mnemonic = .ok row.mnemonic := by
  obtain ⟨-, hname, -, -, -⟩ := row_build hrow (fieldRd w) (fieldRs0 w) (fieldRs1 w)
  rw [decodeWord_of_row hrow hop, ← hname]
  rfl

/-- Settles O4: the statement is `mnemonic_of_row` at each of the nine rows, in the order of the opcode map. -/
theorem opcodeFieldSelectsInstruction : Obligations.OpcodeFieldSelectsInstruction := by
  intro w
  simpa only [opcodeTable, List.forall_mem_cons, List.not_mem_nil, false_implies, implies_true, and_true] using
    mnemonic_of_row (w := w)

/-- A word that decodes is the encoding of what it decodes to (R37, R40). -/
theorem encode_of_decodeWord {nreg : Nat} {w : Word} {i : Instr} (h : decodeWord nreg w = .ok i) : encode i = w := by
  obtain ⟨row, hrow, hop, rfl, -⟩ := decodeWord_ok h
  obtain ⟨hopcode, -, hrd, hrs0, hrs1⟩ := row_build hrow (fieldRd w) (fieldRs0 w) (fieldRs1 w)
  rw [encode, hopcode, hrd, hrs0, hrs1, hop, append_of_fields]

/-- What `decode` takes when it accepts: four bytes whose word decodes, leaving the others. -/
theorem decode_ok {bytes rest : List Byte} {i : Instr} (h : decode bytes = .ok (i, rest)) :
    ∃ b0 b1 b2 b3, bytes = b0 :: b1 :: b2 :: b3 :: rest ∧
      decodeWord Config.nreg (wordOfBytes b0 b1 b2 b3) = .ok i := by
  unfold decode at h
  split at h
  next b0 b1 b2 b3 tail =>
    split at h
    next hw =>
      cases h
      exact ⟨b0, b1, b2, b3, rfl, hw⟩
    · cases h
  · cases h

/-- Fewer than four bytes decode to nothing (R35). -/
theorem decode_truncated {bytes : List Byte} (h : bytes.length < 4) : decode bytes = .error .truncated := by
  match bytes, h with
  | [], _ | [_], _ | [_, _], _ | [_, _, _], _ => rfl

/-- Settles O3: the four bytes `decode` takes make the word that encodes the instruction, so they are its bytes. -/
theorem everyInstructionIsFourBytes : Obligations.EveryInstructionIsFourBytes := by
  refine ⟨fun bytes rest i h => ⟨?_, rfl⟩, fun bytes h => decode_truncated h⟩
  obtain ⟨b0, b1, b2, b3, rfl, hw⟩ := decode_ok h
  rw [encodeBytes, encode_of_decodeWord hw, bytesOfWord_wordOfBytes]
  rfl

end Sys2Proof.Laws
end

section
/-! ADD and SUB complete (R52, R53). The state part is said once for every instruction with a known result; the word
part is that the two readings of a vector agree modulo 2^n. -/

namespace Sys2Proof.Machine

/-- Every instruction has the T-Type word and assembler form of its own opcode, mnemonic and operands (R37, R46). -/
theorem hasTTypeForm (i : Instr) : HasTTypeForm i i.mnemonic i.opcode i.rd i.rs0 i.rs1 := ⟨rfl, rfl⟩

/-- A ready instruction whose computation gives `v` completes with `v` in rd, also where rd is a source, and pc
advanced (steps 4 and 5 of R51). -/
theorem exec_writes_of_ready {i : Instr} {s : State} {v : Word} (h : s.Ready i)
    (hv : resultOf i (s.reg i.rs0) (s.reg i.rs1) = .ok v) :
    ∃ t, exec i s = .next t ∧ t.reg i.rd = v ∧ t.pc = s.pc + 4#32 :=
  ⟨s.afterWrite i.rd v, exec_of_ready h hv, by rw [afterWrite_reg, if_pos rfl], afterWrite_pc s i.rd v⟩

/-- The two readings of a vector agree modulo 2^n (R6). -/
theorem signed_modEq_unsigned {n : Nat} (v : BitVec n) : signed v ≡ unsigned v [ZMOD 2 ^ n] := by
  rw [signed, unsigned, BitVec.toInt_eq_toNat_bmod]
  exact_mod_cast Int.bmod_emod

/-- The sum modulo 2^32 is the same for the signed reading (R52). -/
theorem addResult_eq_signed (a b : Word) : addResult a b = trunc32 (signed a + signed b) :=
  (trunc32_eq_iff _ _).mpr ((signed_modEq_unsigned a).add (signed_modEq_unsigned b)).symm

/-- The difference modulo 2^32 is the same for the signed reading (R53). -/
theorem subResult_eq_signed (a b : Word) : subResult a b = trunc32 (signed a - signed b) :=
  (trunc32_eq_iff _ _).mpr ((signed_modEq_unsigned a).sub (signed_modEq_unsigned b)).symm

/-- Settles O14: ADD's computation gives `addResult`, which is the sum in either reading. -/
theorem addWritesSumModuloWord : Obligations.AddWritesSumModuloWord := by
  intro rd rs0 rs1 s
  refine ⟨hasTTypeForm (.add rd rs0 rs1), fun hready => ?_⟩
  obtain ⟨t, hexec, hreg, hpc⟩ := exec_writes_of_ready hready rfl
  exact ⟨t, hexec, hreg, hreg.trans (addResult_eq_signed _ _), hpc⟩

/-- Settles O15: SUB's computation gives `subResult`, which is the difference in either reading. -/
theorem subWritesDifferenceModuloWord : Obligations.SubWritesDifferenceModuloWord := by
  intro rd rs0 rs1 s
  refine ⟨hasTTypeForm (.sub rd rs0 rs1), fun hready => ?_⟩
  obtain ⟨t, hexec, hreg, hpc⟩ := exec_writes_of_ready hready rfl
  exact ⟨t, hexec, hreg, hreg.trans (subResult_eq_signed _ _), hpc⟩

end Sys2Proof.Machine
end

section
/-! MULH and MULHU complete (R57, R58). The state part is `exec_writes_of_ready`; the word part is that the product of
two halves fits in a word, so truncation loses nothing of it. -/

namespace Sys2Proof.Machine

/-- Truncation keeps an integer in the unsigned range of a word. -/
theorem unsigned_trunc32_of_fits {z : Int} (hlow : 0 ≤ z) (hhigh : z < 2 ^ 32) : unsigned (trunc32 z) = z := by
  rw [unsigned_trunc32, Int.emod_eq_of_lt hlow hhigh]

/-- Truncation keeps an integer in the signed range of a word. -/
theorem signed_trunc32_of_fits {z : Int} (hlow : -(2 ^ 31) ≤ z) (hhigh : z < 2 ^ 31) : signed (trunc32 z) = z :=
  BitVec.toInt_ofInt_eq_self (by decide) hlow hhigh

/-- The product of two halves read as unsigned numbers is below 2^32, so the word holds it exactly (R56, R58). -/
theorem unsigned_productUnsigned (a b : Half) : unsigned (productUnsigned a b) = unsigned a * unsigned b := by
  obtain ⟨ha, ha'⟩ := unsigned_bounds a
  obtain ⟨hb, hb'⟩ := unsigned_bounds b
  have hlt : unsigned a * unsigned b < 2 ^ 16 * 2 ^ 16 := mul_lt_mul'' ha' hb' ha hb
  exact unsigned_trunc32_of_fits (mul_nonneg ha hb) hlt

/-- The product of two halves read as signed numbers lies between -2^30 and 2^30, so the word holds it exactly (R57). -/
theorem signed_productSigned (a b : Half) : signed (productSigned a b) = signed a * signed b := by
  have hlow : -(2 ^ 30) ≤ signed a * signed b := BitVec.le_toInt_mul_toInt
  have hhigh : signed a * signed b ≤ 2 ^ 30 := BitVec.toInt_mul_toInt_le
  exact signed_trunc32_of_fits (by omega) (by omega)

/-- Settles O17: MULH's computation gives `mulhResult`, the signed product of the upper halves, which fits. -/
theorem mulhWritesSignedProductOfUpperHalves : Obligations.MulhWritesSignedProductOfUpperHalves := by
  intro rd rs0 rs1 s
  refine ⟨hasTTypeForm (.mulh rd rs0 rs1), fun hready => ?_⟩
  obtain ⟨t, hexec, hreg, hpc⟩ := exec_writes_of_ready hready rfl
  exact ⟨t, hexec, hreg, (congrArg signed hreg).trans (signed_productSigned _ _), hpc⟩

/-- Settles O18: MULHU's computation gives `mulhuResult`, the unsigned product of the upper halves, which fits. -/
theorem mulhuWritesUnsignedProductOfUpperHalves : Obligations.MulhuWritesUnsignedProductOfUpperHalves := by
  intro rd rs0 rs1 s
  refine ⟨hasTTypeForm (.mulhu rd rs0 rs1), fun hready => ?_⟩
  obtain ⟨t, hexec, hreg, hpc⟩ := exec_writes_of_ready hready rfl
  exact ⟨t, hexec, hreg, (congrArg unsigned hreg).trans (unsigned_productUnsigned _ _), hpc⟩

end Sys2Proof.Machine
end

section
/-! The round trip of the encoding (R36, R37, R40) and the decoder's verdict on every word: the lookup of a row depends on
the opcode field alone, and the specifiers are looked at only after it. -/

namespace Sys2Proof.Laws

/-- The word of every instruction holds its opcode and operands in the fields of R37. -/
theorem fields_encode (i : Instr) : Fields.Statement i := fields_of_append _ _ _ _

/-- Decoding the encoding of an instruction whose specifiers are below NREG gives it back. -/
theorem decodeWord_encode {nreg : Nat} {i : Instr} (h : i.WfFor nreg) : decodeWord nreg (encode i) = .ok i := by
  obtain ⟨hop, hrd, hrs0, hrs1⟩ := fields_encode i
  obtain ⟨row, hfind, hbuild⟩ := row_of_instr i
  simp only [decodeWord, hop, hrd, hrs0, hrs1, hfind, hbuild]
  exact if_pos h

/-- Reading the bytes of a word off a list is decoding the word (R25). -/
theorem decode_bytesOfWord (w : Word) (rest : List Byte) :
    decode (bytesOfWord w ++ rest) = (decodeWord Config.nreg w).map (·, rest) := by
  simp only [bytesOfWord, List.cons_append, List.nil_append, decode, wordOfBytes_bytes]
  cases decodeWord Config.nreg w <;> rfl

/-- Settles O1: the encoded word selects the instruction's own row and gives its operands back. -/
theorem decodeOfEncodeGivesInstruction : Obligations.DecodeOfEncodeGivesInstruction := by
  refine ⟨fun _ _ h => decodeWord_encode h, fun i rest => ?_⟩
  rw [encodeBytes, decode_bytesOfWord, decodeWord_encode (wf_all i)]
  rfl

/-- Settles O2: `encode_of_decodeWord`, and the decoder's check of the specifiers. -/
theorem encodeOfDecodeGivesWord : Obligations.EncodeOfDecodeGivesWord := by
  intro nreg w i h
  obtain ⟨-, -, -, -, hwf⟩ := decodeWord_ok h
  exact ⟨encode_of_decodeWord h, hwf⟩

/-- The opcode map has a row for exactly the opcodes 0x0E .. 0x16 (R39). -/
theorem exists_row_iff (op : Byte) :
    (∃ row ∈ opcodeTable, row.opcode = op) ↔ 0x0E ≤ op.toNat ∧ op.toNat ≤ 0x16 := by
  simp only [opcodeTable, List.exists_mem_cons_iff, List.not_mem_nil, false_and, exists_false, or_false,
    ← BitVec.toNat_inj, BitVec.toNat_ofNat]
  omega

/-- An opcode without a row is refused by name (R43). -/
theorem decodeWord_opcodeNotInScope {nreg : Nat} {w : Word}
    (h : (fieldOpcode w).toNat < 0x0E ∨ 0x16 < (fieldOpcode w).toNat) :
    decodeWord nreg w = .error (.opcodeNotInScope (fieldOpcode w)) := by
  have hnone : opcodeTable.find? (fun row => row.opcode == fieldOpcode w) = none := by
    refine List.find?_eq_none.mpr fun row hrow hop => ?_
    have := (exists_row_iff (fieldOpcode w)).mp ⟨row, hrow, by simpa using hop⟩
    omega
  simp only [decodeWord, hnone]

/-- A word with a row's opcode: the row's instruction, if its specifiers are below NREG (R40, R42). -/
theorem decodeWord_eq_of_row {nreg : Nat} {row : OpcodeRow} (hrow : row ∈ opcodeTable) {w : Word}
    (hop : row.opcode = fieldOpcode w) :
    decodeWord nreg w =
      if (fieldRd w).toNat < nreg ∧ (fieldRs0 w).toNat < nreg ∧ (fieldRs1 w).toNat < nreg
      then .ok (row.build (fieldRd w) (fieldRs0 w) (fieldRs1 w)) else .error .registerOutOfRange := by
  obtain ⟨-, -, hrd, hrs0, hrs1⟩ := row_build hrow (fieldRd w) (fieldRs0 w) (fieldRs1 w)
  simp only [decodeWord, ← hop, find_row hrow, Instr.WfFor, hrd, hrs0, hrs1]

/-- Settles O5: the opcode either has no row, or has one, and then the specifiers decide. -/
theorem decoderVerdictOnEveryWord : Obligations.DecoderVerdictOnEveryWord := by
  refine fun nreg w => ⟨decodeWord_opcodeNotInScope, fun hin => ?_⟩
  obtain ⟨row, hrow, hop⟩ := (exists_row_iff (fieldOpcode w)).mpr hin
  rw [decodeWord_eq_of_row hrow hop]
  refine ⟨fun hout => if_neg (by omega), fun hwf => ⟨_, if_pos hwf, ?_⟩⟩
  obtain ⟨hopcode, -, hrd, hrs0, hrs1⟩ := row_build hrow (fieldRd w) (fieldRs0 w) (fieldRs1 w)
  exact ⟨hopcode.trans hop, hrd, hrs0, hrs1⟩

/-- Settles O6: the word is its four bytes side by side, the opcode lowest. -/
theorem encodedWordAsNumberAndBytes : Obligations.EncodedWordAsNumberAndBytes :=
  fun i => ⟨toNat_append_bytes i.opcode i.rd i.rs0 i.rs1, bytesOfWord_wordOfBytes i.opcode i.rd i.rs0 i.rs1⟩

/-- Settles O7: six fixed words, run through the decoder. -/
theorem workedEncodingsDecode : Obligations.WorkedEncodingsDecode := by
  unfold Obligations.WorkedEncodingsDecode
  decide

end Sys2Proof.Laws
end

section
/-! The transcriber on the two printed forms (R46 to R49, conflict C2): a mnemonic with a space behind it selects its row,
and three register names with readable separators are the operands. -/

namespace Sys2Proof.Machine

/-- A line that begins with an instruction's mnemonic and a space is read by that instruction's row. -/
theorem parseLine_mnemonic (i : Instr) : ∃ build : Reg → Reg → Reg → Instr, build i.rd i.rs0 i.rs1 = i ∧
    ∀ text j, parseOperands build (skipSpaces text) = .ok j →
      parseLine (i.mnemonic.toList ++ ' ' :: text) = .ok (.instruction j) := by
  cases i <;> refine ⟨_, rfl, fun text j h => ?_⟩ <;>
    simp [Instr.mnemonic, parseLine, opcodeTable, afterMnemonic, afterWord, h]

/-- Three register names read back as operands, whatever readable separator stands between the last two. -/
theorem parseOperands_registerNames (build : Reg → Reg → Reg → Instr) (rd rs0 rs1 : Reg) {sep : List Char}
    (hdigit : NoDigitAhead (sep ++ registerName rs1))
    (hsep : parseCommaOrSpaces (sep ++ registerName rs1) = .ok (registerName rs1)) :
    parseOperands build (registerName rd ++ ',' :: ' ' :: (registerName rs0 ++ (sep ++ registerName rs1))) =
      .ok (build rd rs0 rs1) := by
  have hcomma : ∀ text, NoDigitAhead (',' :: text) := fun _ _ hc => by cases hc; rfl
  have hend : parseRegister (registerName rs1) = .ok (rs1, []) := by
    simpa using parseRegister_registerName rs1 (text := []) (fun _ hc => by cases hc)
  simp only [parseOperands, parseRegister_registerName rd (hcomma _), parseComma, skipSpaces_comma, skipSpaces_space,
    skipSpaces_registerName, parseRegister_registerName rs0 hdigit, hsep, hend]

/-- A comma and a space are read as a separator (R46). -/
theorem parseCommaOrSpaces_comma (r : Reg) :
    parseCommaOrSpaces ([',', ' '] ++ registerName r) = .ok (registerName r) := by
  simp [parseCommaOrSpaces, parseComma, registerName, skipSpaces]

/-- A space alone is read as the separator of the manual's template (R49, conflict C2). -/
theorem parseCommaOrSpaces_space (r : Reg) : parseCommaOrSpaces ([' '] ++ registerName r) = .ok (registerName r) := by
  simp [parseCommaOrSpaces, parseComma, registerName, skipSpaces]

/-- An instruction's line reads back, whatever readable separator stands between its sources. -/
theorem parseLine_instruction (i : Instr) {sep : List Char} (hdigit : NoDigitAhead (sep ++ registerName i.rs1))
    (hsep : parseCommaOrSpaces (sep ++ registerName i.rs1) = .ok (registerName i.rs1)) :
    parseLine (i.mnemonic.toList ++ ' ' :: (registerName i.rd ++ ',' :: ' ' ::
      (registerName i.rs0 ++ (sep ++ registerName i.rs1)))) = .ok (.instruction i) := by
  obtain ⟨build, hbuild, hline⟩ := parseLine_mnemonic i
  refine hline _ i ?_
  rw [skipSpaces_registerName, parseOperands_registerNames build i.rd i.rs0 i.rs1 hdigit hsep, hbuild]

/-- Settles O8: the two forms differ in the separator between the sources alone. -/
theorem assemblerTextReadsBack : Obligations.AssemblerTextReadsBack := by
  refine ⟨fun i => ⟨?_, ?_⟩, fun _ => rfl⟩
  · simpa [printInstr] using
      parseLine_instruction i (fun _ hc => by cases hc; rfl) (parseCommaOrSpaces_comma i.rs1)
  · simpa [printTemplate] using
      parseLine_instruction i (fun _ hc => by cases hc; rfl) (parseCommaOrSpaces_space i.rs1)

end Sys2Proof.Machine
end

section
/-! Executing and stepping: what any of the nine changes (R51), where a step stops (R75, R87), and the invariant of a
run, which holds at reset and launch and is kept by every step. -/

namespace Sys2Proof.Machine

/-- Everything a step changes when it answers a next state: it ran an instruction inside ENTRY .. END (R51, R87). -/
theorem step_next_effect {s t : State} (h : step s = .next t) :
    s.pc.toNat + 4 ≤ s.codeEnd ∧ ∃ rd v, t = s.afterWrite rd v := by
  obtain ⟨i, hfetch, hexec⟩ := step_next h
  obtain ⟨-, -, hend, -⟩ := fetch_ok hfetch
  obtain ⟨-, v, -, ht⟩ := exec_next hexec
  exact ⟨hend, i.rd, v, ht⟩

/-- Advancing pc by 4 does not wrap where an instruction lies before a valid END (R16, R17, R24). -/
theorem toNat_pc_add_four {s : State} (hend : s.pc.toNat + 4 ≤ s.codeEnd) (hbound : s.codeEnd ≤ 2 ^ 32 - 4) :
    (s.pc + 4#32).toNat = s.pc.toNat + 4 := by
  rw [BitVec.toNat_add_of_lt (by simp only [BitVec.toNat_ofNat]; omega)]
  rfl

/-- A step from a state that meets the invariant advances pc by 4 as a number. -/
theorem step_next_pc {s t : State} (hinv : s.Inv) (h : step s = .next t) : t.pc.toNat = s.pc.toNat + 4 := by
  obtain ⟨⟨-, -, -, -, hbound, -⟩, -⟩ := hinv
  obtain ⟨hend, rd, v, rfl⟩ := step_next_effect h
  exact toNat_pc_add_four hend hbound

/-- Settles O34: CODE, ENTRY and END stay, and pc moves to the next word, which is at most END. -/
theorem stepKeepsInvariant : Obligations.StepKeepsInvariant := by
  intro s t hinv h
  have hpc := step_next_pc hinv h
  obtain ⟨hcode, halign, hentry, -⟩ := hinv
  obtain ⟨hend, rd, v, rfl⟩ := step_next_effect h
  refine ⟨hcode, ?_, ?_, ?_⟩
  · omega
  · rw [afterWrite_entry]; omega
  · rw [afterWrite_codeEnd]; omega

end Sys2Proof.Machine
end

section
/-! The code memory over several bytes (R26): a value of n + 1 bytes is its lowest byte and the n bytes above it, and
reading, writing and the little-endian reading all follow that split. -/

namespace Sys2Proof.Machine

/-- A value put together from its lowest byte and the bytes above it (R26). -/
theorem append_bytes_of_value {n : Nat} (v : BitVec (8 * (n + 1))) :
    (v.extractLsb' 8 (8 * n) ++ v.extractLsb' 0 8 : BitVec (8 * n + 8)) = v :=
  (BitVec.extractLsb'_append_extractLsb'_eq_extractLsb' rfl).trans BitVec.extractLsb'_eq_self

/-- The k-th byte of the bytes above the lowest one. -/
theorem extractByte_high {n k : Nat} (hk : k < n) (v : BitVec (8 * (n + 1))) :
    (v.extractLsb' 8 (8 * n)).extractLsb' (8 * k) 8 = v.extractLsb' (8 * (k + 1)) 8 := by
  ext i hi
  simp only [BitVec.getElem_extractLsb', BitVec.getLsbD_extractLsb']
  rw [decide_eq_true (by omega), Bool.true_and, show 8 + (8 * k + i) = 8 * (k + 1) + i by omega]

/-- Reading one byte more: the lowest byte, and the other bytes from the next address on (R26). -/
theorem memRead_succ_eq_some {m : Memory} {a n : Nat} {v : BitVec (8 * (n + 1))} :
    memRead m a (n + 1) = some v ↔
      readByte m a = some (v.extractLsb' 0 8) ∧ memRead m (a + 1) n = some (v.extractLsb' 8 (8 * n)) := by
  constructor
  · intro h
    simp only [memRead] at h
    split at h
    next b high hb hhigh =>
      cases h
      exact ⟨hb.trans (congrArg some BitVec.extractLsb'_append_eq_right.symm),
        hhigh.trans (congrArg some BitVec.extractLsb'_append_eq_left.symm)⟩
    · cases h
  · rintro ⟨hlow, hhigh⟩
    simp only [memRead, hlow, hhigh]
    exact congrArg some (append_bytes_of_value v)

/-- Settles O40: by induction on the number of bytes. -/
theorem memReadIsLittleEndian : Obligations.MemReadIsLittleEndian := by
  intro m n
  induction n with
  | zero =>
    intro a v
    simp [memRead, BitVec.of_length_zero]
  | succ n ih =>
    intro a v
    rw [memRead_succ_eq_some, ih, Nat.forall_lt_succ_left]
    refine and_congr_right fun _ => forall_congr' fun k => imp_congr_right fun hk => ?_
    rw [extractByte_high hk, Nat.add_right_comm, Nat.add_assoc]

/-- Reading what was written gives the value (R26). -/
theorem memRead_writeBytes {m : Memory} {a n : Nat} {v : BitVec (8 * n)} (h : m.Pairwise (fun c d => c.1 < d.1)) :
    memRead (writeBytes m a n v) a n = some v := by
  induction n generalizing m a with
  | zero => simp [memRead, BitVec.of_length_zero]
  | succ n ih =>
    have hrising := writeByte_rising (a := a) (b := v.extractLsb' 0 8) h
    refine memRead_succ_eq_some.mpr ⟨?_, ih hrising⟩
    rw [writeBytes, readByte_writeBytes_outside hrising (.inl (Nat.lt_succ_self a)), readByte_writeByte m a a _ h,
      if_pos rfl]

/-- Settles O39: MemWrite answers with `writeBytes`, which reads back and leaves every other byte. -/
theorem memReadAfterMemWrite : Obligations.MemReadAfterMemWrite := by
  refine fun m a n v h => ⟨fun m' hm' => ?_, ?_⟩
  · obtain ⟨-, rfl⟩ := memWrite_eq_some.mp hm'
    exact ⟨memRead_writeBytes h, fun x hx => readByte_writeBytes_outside h hx⟩
  · simp only [Option.isSome_iff_exists, memWrite_eq_some, exists_and_left, exists_eq, and_true]

/-- MemWrite keeps the canonical form of memory (R24, R26). -/
theorem memWrite_wf {m m' : Memory} {a n : Nat} {v : BitVec (8 * n)} (h : Memory.wf m)
    (hm' : memWrite m a n v = some m') : Memory.wf m' := by
  obtain ⟨hfits, rfl⟩ := memWrite_eq_some.mp hm'
  exact writeBytes_wf h hfits

/-- Settles O41: a placed word is written by MemWrite, or nothing changes. -/
theorem memWriteKeepsCanonicalForm : Obligations.MemWriteKeepsCanonicalForm := by
  refine ⟨fun _ _ _ _ _ => memWrite_wf, fun s w h => ?_⟩
  unfold placeWord
  split
  · exact h
  next hm => exact memWrite_wf h hm

end Sys2Proof.Machine
end

section
/-! One step (R75, R87): which instruction it runs, and each stop before there is one to run. -/

namespace Sys2Proof.Machine

/-- A step runs the fetched instruction (R87). -/
theorem step_of_fetch {s : State} {i : Instr} (h : fetch s = .ok i) : step s = exec i s := by simp only [step, h]

/-- A step without a fetched instruction stops under the fetch's name (R87). -/
theorem step_of_fetch_error {s : State} {r : Refusal} (h : fetch s = .error r) : step s = .refused r := by
  simp only [step, h]

/-- A step at a word in CODE that decodes runs its instruction (R27, R28, R40). -/
theorem step_of_read {s : State} {w : Word} {i : Instr} (h4 : s.pc.toNat % 4 = 0) (he : s.entry.toNat ≤ s.pc.toNat)
    (hl : s.pc.toNat + 4 ≤ s.codeEnd) (hm : memRead s.code s.pc.toNat 4 = some w)
    (hw : decodeWord Config.nreg w = .ok i) : step s = exec i s :=
  step_of_fetch (by rw [fetch_of_read h4 he hl hm, hw]; rfl)

/-- Settles O9: the four bytes are read as one word, which decodes as they do. -/
theorem stepRunsDecodedInstruction : Obligations.StepRunsDecodedInstruction := by
  intro s i b0 b1 b2 b3 h4 he hl h0 h1 h2 h3 hdecode
  obtain ⟨_, _, _, _, hbytes, hw⟩ := Laws.decode_ok hdecode
  cases hbytes
  exact step_of_read h4 he hl (memRead_four h0 h1 h2 h3) hw

/-- Placing a word at an aligned pc writes its bytes and widens ENTRY .. END to them (log entry 5). -/
theorem placeWord_of_aligned {s : State} {w : Word} (h4 : s.pc.toNat % 4 = 0) :
    placeWord s w =
      { s with
        code := writeBytes s.code s.pc.toNat 4 w
        entry := if s.pc.toNat < s.entry.toNat then s.pc else s.entry
        codeEnd := if s.codeEnd < s.pc.toNat + 4 then s.pc.toNat + 4 else s.codeEnd } := by
  have hfits : s.pc.toNat + 4 ≤ 2 ^ 32 := by have := s.pc.isLt; omega
  simp only [placeWord, memWrite, if_pos hfits]

/-- The fetch after a word is placed at an aligned pc answers as the decoder does on the word. -/
theorem fetch_placeWord {s : State} (w : Word) (hrising : s.code.Pairwise (fun c d => c.1 < d.1))
    (h4 : s.pc.toNat % 4 = 0) : fetch (placeWord s w) = (decodeWord Config.nreg w).mapError refusalOfDecode := by
  rw [placeWord_of_aligned h4]
  refine fetch_of_read h4 ?_ ?_ (memRead_writeBytes hrising)
  · dsimp only; split <;> omega
  · dsimp only; split <;> omega

/-- Settles O10: the word reads back from where it was placed and decodes to the instruction. -/
theorem placedWordRunsNext : Obligations.PlacedWordRunsNext := by
  intro s i hrising h4
  have hplace : s.withFetchWord 32 (encode i).toNat = placeWord s (encode i) := by
    rw [State.withFetchWord, Nat.mod_eq_of_lt (encode i).isLt, BitVec.ofNat_toNat, BitVec.setWidth_eq]
  rw [hplace]
  refine ⟨step_of_fetch ?_, placeWord_pc s _, placeWord_regs s _, placeWord_unwritten s _⟩
  rw [fetch_placeWord (encode i) hrising h4, Laws.decodeWord_encode (Laws.wf_all i)]
  rfl

/-- The fetch at END (R86). -/
theorem fetch_runComplete {s : State} (h : s.pc.toNat = s.codeEnd) : fetch s = .error .runComplete := if_pos h

/-- The fetch at a misaligned pc (R27). -/
theorem fetch_misalignedPc {s : State} (hend : s.pc.toNat ≠ s.codeEnd) (h4 : s.pc.toNat % 4 ≠ 0) :
    fetch s = .error .misalignedPc := (if_neg hend).trans (if_pos h4)

/-- The fetch of a word that is not all inside CODE, by the bounds or by a missing byte (R28, log entry 16). -/
theorem fetch_fetchOutsideCode {s : State} (hend : s.pc.toNat ≠ s.codeEnd) (h4 : s.pc.toNat % 4 = 0)
    (hout : (s.pc.toNat < s.entry.toNat ∨ s.codeEnd < s.pc.toNat + 4) ∨ memRead s.code s.pc.toNat 4 = none) :
    fetch s = .error .fetchOutsideCode := by
  unfold fetch
  rw [if_neg hend, if_neg (not_not_intro h4)]
  split
  · rfl
  next hbounds => rw [hout.resolve_left hbounds]

/-- A read over a missing byte gives nothing (R26). -/
theorem memRead_eq_none {m : Memory} {a n k : Nat} (hk : k < n) (h : readByte m (a + k) = none) :
    memRead m a n = none := by
  refine Option.eq_none_iff_forall_ne_some.mpr fun v hv => ?_
  have hbyte := (memReadIsLittleEndian m n a v).mp hv k hk
  rw [h] at hbyte
  cases hbyte

/-- Settles O11: one clause for each stop of the fetch, in its order. -/
theorem stepStopsBeforeExecution : Obligations.StepStopsBeforeExecution := by
  intro s
  refine ⟨fun hend => step_of_fetch_error (fetch_runComplete hend),
    fun hend h4 => step_of_fetch_error (fetch_misalignedPc hend h4), fun hend h4 hout => ?_,
    fun hend h4 ⟨k, hk, hbyte⟩ => ?_, fun h4 he hl w hw hop => ?_⟩ <;> refine step_of_fetch_error ?_
  · exact fetch_fetchOutsideCode hend h4 (.inl (by omega))
  · exact fetch_fetchOutsideCode hend h4 (.inr (memRead_eq_none hk hbyte))
  · rw [fetch_of_read h4 he hl hw, Laws.decodeWord_opcodeNotInScope hop]
    rfl

end Sys2Proof.Machine
end

section
/-! What the nine have in common (R51): when they complete, when they stop, what they change, and that the result depends
on the source values alone. -/

namespace Sys2Proof.Machine

/-- Settles O12: the common steps refuse there before they read a register. -/
theorem lastWordOfAddressSpaceRefused : Obligations.LastWordOfAddressSpaceRefused :=
  fun i s hpc => (exec_eq_executeTType i s).trans (executeTType_pcWrap hpc)

/-- Settles O13: the common steps read rs0 first and rs1 next. -/
theorem markedSourceFaults : Obligations.MarkedSourceFaults :=
  fun i s hpc => ⟨fun h0 => (exec_eq_executeTType i s).trans (executeTType_rs0_unwritten hpc h0),
    fun h0 h1 => (exec_eq_executeTType i s).trans (executeTType_rs1_unwritten hpc h0 h1)⟩

/-- A ready instruction completes: every computation gives a value (log entries 7 and 8). -/
theorem exec_next_of_ready {i : Instr} {s : State} (h : s.Ready i) : ∃ t, exec i s = .next t := by
  obtain ⟨v, hv⟩ := resultOf_isOk i (s.reg i.rs0) (s.reg i.rs1)
  exact ⟨_, exec_of_ready h hv⟩

/-- Settles O27: completing asks for readiness (`exec_next`), which is enough (`exec_next_of_ready`). -/
theorem completesExactlyWhenReady : Obligations.CompletesExactlyWhenReady :=
  fun _ _ => ⟨fun ⟨_, h⟩ => (exec_next h).1, exec_next_of_ready⟩

/-- Settles O28: an instruction that completes only wrote rd and advanced pc. -/
theorem frameOfAllNineInstructions : Obligations.FrameOfAllNineInstructions := by
  intro i s t h
  obtain ⟨-, v, -, rfl⟩ := exec_next h
  refine ⟨fun r hr => ⟨?_, ?_⟩, ?_, rfl, rfl, rfl, fun _ => rfl, rfl⟩
  · rw [afterWrite_reg, if_neg hr]
  · rw [afterWrite_isUnwritten, if_neg hr]
  · rw [afterWrite_isUnwritten, if_pos rfl]

/-- The computation of a row's instruction is the row's: the operand fields do not enter it. -/
theorem resultOf_build {row : OpcodeRow} (h : row ∈ opcodeTable) (rd rd' rs0 rs0' rs1 rs1' : Reg) :
    resultOf (row.build rd rs0 rs1) = resultOf (row.build rd' rs0' rs1') := by
  simp only [opcodeTable, List.mem_cons, List.not_mem_nil, or_false] at h
  rcases h with rfl | rfl | rfl | rfl | rfl | rfl | rfl | rfl | rfl <;> rfl

/-- A ready instruction built by a row writes to its rd what the row computes from the old source values. -/
theorem exec_build_writes {row : OpcodeRow} (hrow : row ∈ opcodeTable) {rd rs0 rs1 : Reg} {s : State} {v : Word}
    (h : s.Ready (row.build rd rs0 rs1)) (hv : resultOf (row.build rd rs0 rs1) (s.reg rs0) (s.reg rs1) = .ok v) :
    ∃ t, exec (row.build rd rs0 rs1) s = .next t ∧ t.reg rd = v := by
  obtain ⟨-, -, hrd, hrs0, hrs1⟩ := Laws.row_build hrow rd rs0 rs1
  obtain ⟨t, hexec, hreg, -⟩ := exec_writes_of_ready h (by rwa [hrs0, hrs1])
  exact ⟨t, hexec, by rwa [hrd] at hreg⟩

/-- Settles O26: both executions apply the row's one computation to the same two values. -/
theorem resultComesFromOldSourceValues : Obligations.ResultComesFromOldSourceValues := by
  intro row hrow rd rd' rs0 rs0' rs1 rs1' s s' hready hready' h0 h1
  obtain ⟨v, hv⟩ := resultOf_isOk (row.build rd rs0 rs1) (s.reg rs0) (s.reg rs1)
  have hv' : resultOf (row.build rd' rs0' rs1') (s'.reg rs0') (s'.reg rs1') = .ok v := by
    rw [← h0, ← h1, resultOf_build hrow rd' rd rs0' rs0 rs1' rs1, hv]
  obtain ⟨t, hexec, hreg⟩ := exec_build_writes hrow hready hv
  obtain ⟨t', hexec', hreg'⟩ := exec_build_writes hrow hready' hv'
  exact ⟨t, t', hexec, hexec', hreg.trans hreg'.symm⟩

/-- Settles O30: `writeReg_reg` and `writeReg_isUnwritten` at the written register and at another. -/
theorem registerHoldsLastWrite : Obligations.RegisterHoldsLastWrite := by
  refine fun s r r' v => ⟨?_, ?_, fun hne => ⟨?_, ?_⟩⟩
  · rw [writeReg_reg, if_pos rfl]
  · rw [writeReg_isUnwritten, if_pos rfl]
  · rw [writeReg_reg, if_neg hne]
  · rw [writeReg_isUnwritten, if_neg hne]

end Sys2Proof.Machine
end

section
/-! Reset and launch (R83, R84): both meet the invariant of a run. -/

namespace Sys2Proof.Machine

/-- The marks are all down exactly when no specifier names a marked register. -/
theorem allWritten_iff {s : State} : s.AllWritten ↔ ∀ r, s.isUnwritten r = false :=
  ⟨AllWritten.isUnwritten, fun h n hn => h (BitVec.ofFin ⟨n, hn⟩)⟩

/-- Every register is zero after reset (log entry 2). -/
@[simp] theorem reset_reg (r : Reg) : State.reset.reg r = 0#32 := Vector.getElem_replicate r.isLt

/-- No register is marked after reset (log entry 3). -/
@[simp] theorem reset_isUnwritten (r : Reg) : State.reset.isUnwritten r = false := Vector.getElem_replicate r.isLt

/-- Settles O31: pc and END are both 0, so the first step answers that the run is complete. -/
theorem resetStateValues : Obligations.ResetStateValues :=
  ⟨fun r => ⟨reset_reg r, reset_isUnwritten r⟩, rfl, rfl, rfl, rfl, step_of_fetch_error (fetch_runComplete rfl)⟩

/-- Settles O32: the empty code range at 0 is valid, and no mark is set. -/
theorem resetMeetsInvariant : Obligations.ResetMeetsInvariant :=
  ⟨by decide, allWritten_iff.mpr reset_isUnwritten⟩

/-- The addresses of bytes laid out from `a` up. -/
theorem mem_cellsFrom {a : Nat} {text : List Byte} {c : Host.Cell} (h : c ∈ cellsFrom a text) :
    a ≤ c.1 ∧ c.1 < a + text.length := by
  induction text generalizing a with
  | nil => cases h
  | cons b rest ih =>
    rw [List.length_cons]
    rcases List.mem_cons.mp h with rfl | h
    · exact ⟨le_rfl, by dsimp only; omega⟩
    · have := ih h
      omega

/-- Bytes laid out from an address up rise in address. -/
theorem cellsFrom_rising (a : Nat) (text : List Byte) : (cellsFrom a text).Pairwise (fun c d => c.1 < d.1) := by
  induction text generalizing a with
  | nil => exact .nil
  | cons b rest ih => exact .cons (fun d hd => (mem_cellsFrom hd).1) (ih (a + 1))

/-- Bytes laid out below 2^32 are in canonical form. -/
theorem cellsFrom_wf {a : Nat} {text : List Byte} (h : a + text.length ≤ 2 ^ 32) : Memory.wf (cellsFrom a text) :=
  ⟨cellsFrom_rising a text, fun _ hc => (mem_cellsFrom hc).2.trans_le h⟩

/-- Reading a byte of a text that is laid out from `a` up. -/
theorem readByte_cellsFrom (a : Nat) (text : List Byte) (k : Nat) : readByte (cellsFrom a text) (a + k) = text[k]? := by
  induction text generalizing a k with
  | nil => rfl
  | cons b rest ih =>
    cases k with
    | zero => exact if_pos rfl
    | succ k =>
      rw [cellsFrom, readByte, if_neg (by omega), show a + (k + 1) = a + 1 + k by omega, ih, List.getElem?_cons_succ]

/-- Settles O33: the text is laid out from ENTRY, so END is as many bytes further and each address between holds one. -/
theorem launchMeetsInvariant : Obligations.LaunchMeetsInvariant := by
  intro entry text regs unwritten h4 htext hbound
  have hcode : ∀ a, a < entry.toNat + text.length → entry.toNat ≤ a →
      (readByte (cellsFrom entry.toNat text) a).isSome = true := by
    intro a hlt hle
    obtain ⟨k, rfl⟩ := Nat.exists_eq_add_of_le hle
    rw [readByte_cellsFrom, List.getElem?_eq_getElem (Nat.lt_of_add_lt_add_left hlt), Option.isSome_some]
  have hwf : Memory.wf (cellsFrom entry.toNat text) := cellsFrom_wf (by omega)
  exact ⟨⟨⟨hwf, h4, by dsimp only [launch]; omega, Nat.le_add_right _ _, hbound, hcode⟩, h4, le_rfl,
    Nat.le_add_right _ _⟩, fun k _ => readByte_cellsFrom entry.toNat text k⟩

end Sys2Proof.Machine
end

section
/-! Runs (R81, R85 to R87): what each step keeps, how far a run goes, and that it gets there. -/

namespace Sys2Proof.Machine

/-- Where no register carries the mark no instruction faults (log entries 3, 7 and 8). -/
theorem exec_ne_fault {s : State} (h : s.AllWritten) (i : Instr) (f : Fault) : exec i s ≠ .fault f := by
  by_cases hpc : s.pc = lastWordAddress
  · rw [lastWordOfAddressSpaceRefused i s hpc]
    nofun
  · obtain ⟨t, ht⟩ := exec_next_of_ready ⟨hpc, AllWritten.isUnwritten h i.rs0, AllWritten.isUnwritten h i.rs1⟩
    rw [ht]
    nofun

/-- A write sets no mark. -/
theorem afterWrite_allWritten {s : State} (h : s.AllWritten) (rd : Reg) (v : Word) :
    (s.afterWrite rd v).AllWritten := by
  refine allWritten_iff.mpr fun r => ?_
  rw [afterWrite_isUnwritten, AllWritten.isUnwritten h r, ite_self]

/-- Settles O35: a step is refused by the fetch or is an execution, which does not fault and sets no mark. -/
theorem unmarkedStatesNeverFault : Obligations.UnmarkedStatesNeverFault := by
  refine fun s h => ⟨fun f hf => ?_, fun t ht => ?_⟩
  · cases hfetch : fetch s with
    | error r => rw [step_of_fetch_error hfetch] at hf; cases hf
    | ok i => exact exec_ne_fault h i f ((step_of_fetch hfetch).symm.trans hf)
  · obtain ⟨-, rd, v, rfl⟩ := step_next_effect ht
    exact afterWrite_allWritten h rd v

/-- Settles O36: by induction on the number of steps. -/
theorem runAdvancesPcByFourPerStep : Obligations.RunAdvancesPcByFourPerStep := by
  intro k
  induction k with
  | zero =>
    intro s t h
    cases h
    exact ⟨(BitVec.add_zero s.pc).symm, rfl, rfl, rfl⟩
  | succ k ih =>
    intro s t h
    obtain ⟨s', hstep, hrun⟩ := coreRun_next h
    obtain ⟨-, rd, v, rfl⟩ := step_next_effect hstep
    obtain ⟨hpc, hcode, hentry, hend⟩ := ih _ _ hrun
    refine ⟨?_, hcode, hentry, hend⟩
    rw [hpc, afterWrite_pc, BitVec.add_assoc, ← BitVec.ofNat_add, Nat.mul_succ, Nat.add_comm]

/-- Along a run the invariant stays and pc, as a number, advances by 4 a step. -/
theorem run_keeps_inv {k : Nat} {s t : State} (hinv : s.Inv) (h : Host.Core.run Sys2Proof.core k s = .next t) :
    t.Inv ∧ t.pc.toNat = s.pc.toNat + 4 * k := by
  induction k generalizing s with
  | zero =>
    cases h
    exact ⟨hinv, rfl⟩
  | succ k ih =>
    obtain ⟨s', hstep, hrun⟩ := coreRun_next h
    obtain ⟨ht, hpc⟩ := ih (stepKeepsInvariant s s' hinv hstep) hrun
    have := step_next_pc hinv hstep
    exact ⟨ht, by omega⟩

/-- Settles O37: the run's last state would meet the invariant with pc past END. -/
theorem everyRunEnds : Obligations.EveryRunEnds := by
  intro s hinv t h
  obtain ⟨⟨-, -, -, hlast⟩, hpc⟩ := run_keeps_inv hinv h
  obtain ⟨-, -, -, hend⟩ := runAdvancesPcByFourPerStep _ s t h
  omega

/-- Before END a decoding text with no mark set lets the machine take a step (R85). -/
theorem step_progress {s : State} (hinv : s.Inv) (htext : s.TextDecodes) (hwritten : s.AllWritten)
    (hend : s.pc.toNat < s.codeEnd) : ∃ t, step s = .next t := by
  obtain ⟨⟨-, -, hend4, -, hbound, -⟩, h4, hentry, -⟩ := hinv
  have hl : s.pc.toNat + 4 ≤ s.codeEnd := by omega
  obtain ⟨w, hread, hdecodes⟩ := Option.map_eq_some_iff.mp (htext s.pc.toNat hend hentry h4)
  cases hw : decodeWord Config.nreg w with
  | error e => rw [hw] at hdecodes; cases hdecodes
  | ok i =>
    have hpc : s.pc ≠ lastWordAddress := by
      rintro hpc
      rw [hpc, lastWordAddress, BitVec.toNat_ofNat] at hl
      omega
    rw [step_of_read h4 hentry hl hread hw]
    exact exec_next_of_ready ⟨hpc, AllWritten.isUnwritten hwritten _, AllWritten.isUnwritten hwritten _⟩

/-- A decoding text with no mark set runs to END in as many steps as there are words ahead. -/
theorem run_reaches_end {n : Nat} {s : State} (hinv : s.Inv) (htext : s.TextDecodes) (hwritten : s.AllWritten)
    (hn : s.pc.toNat + 4 * n = s.codeEnd) : ∃ t, Host.Core.run Sys2Proof.core n s = .next t ∧ t.Complete := by
  induction n generalizing s with
  | zero => exact ⟨s, rfl, hn⟩
  | succ n ih =>
    obtain ⟨s', hstep⟩ := step_progress hinv htext hwritten (by omega)
    have hpc := step_next_pc hinv hstep
    have hinv' := stepKeepsInvariant s s' hinv hstep
    have hwritten' := (unmarkedStatesNeverFault s hwritten).2 s' hstep
    obtain ⟨-, rd, v, rfl⟩ := step_next_effect hstep
    rw [coreRun_of_next hstep]
    exact ih hinv' htext hwritten' (by rw [afterWrite_codeEnd]; omega)

/-- Settles O38: END is a whole number of words ahead of pc. -/
theorem runReachesEnd : Obligations.RunReachesEnd := by
  intro s hinv htext hwritten
  have hn : s.pc.toNat + 4 * ((s.codeEnd - s.pc.toNat) / 4) = s.codeEnd := by
    obtain ⟨⟨-, -, hend4, -⟩, h4, -, hle⟩ := hinv
    omega
  obtain ⟨t, hrun, hcomplete⟩ := run_reaches_end hinv htext hwritten hn
  exact ⟨t, hrun, hcomplete, step_of_fetch_error (fetch_runComplete hcomplete)⟩

end Sys2Proof.Machine
end

section
/-! Truncation to a word and the two readings of it (R3, R6): truncating a reading gives the word back, a word's reading
is an integer exactly when the integer is in range, and the laws of ADD and SUB (R54). -/

namespace Sys2Proof.Machine

/-- Truncating the signed reading gives the word back. -/
@[simp] theorem trunc32_signed (v : Word) : trunc32 (signed v) = v := BitVec.ofInt_toInt

/-- Truncating the unsigned reading gives the word back. -/
@[simp] theorem trunc32_unsigned (v : Word) : trunc32 (unsigned v) = v :=
  (BitVec.ofInt_natCast 32 v.toNat).trans (BitVec.ofNat_toNat 32 v)

/-- The signed reading of a word is at least -2^31 and below 2^31. -/
theorem signed_bounds (v : Word) : -(2 ^ 31) ≤ signed v ∧ signed v < 2 ^ 31 := ⟨BitVec.le_toInt v, BitVec.toInt_lt⟩

/-- Truncation keeps exactly the integers in the unsigned range. -/
theorem unsigned_trunc32_eq_iff {z : Int} : unsigned (trunc32 z) = z ↔ 0 ≤ z ∧ z < 2 ^ 32 :=
  ⟨fun h => h ▸ unsigned_bounds (trunc32 z), fun h => unsigned_trunc32_of_fits h.1 h.2⟩

/-- Truncation keeps exactly the integers in the signed range. -/
theorem signed_trunc32_eq_iff {z : Int} : signed (trunc32 z) = z ↔ -(2 ^ 31) ≤ z ∧ z < 2 ^ 31 :=
  ⟨fun h => h ▸ signed_bounds (trunc32 z), fun h => signed_trunc32_of_fits h.1 h.2⟩

/-- Truncation carries sums over. -/
theorem trunc32_add (y z : Int) : trunc32 (y + z) = trunc32 y + trunc32 z := BitVec.ofInt_add y z

/-- Truncation carries differences over. -/
theorem trunc32_sub (y z : Int) : trunc32 (y - z) = trunc32 y - trunc32 z := by
  rw [eq_sub_iff_add_eq, ← trunc32_add, sub_add_cancel]

/-- ADD's result is the sum of bit vectors (R52). -/
theorem addResult_eq_add (a b : Word) : addResult a b = a + b := by
  rw [addResult, trunc32_add, trunc32_unsigned, trunc32_unsigned]

/-- SUB's result is the difference of bit vectors (R53). -/
theorem subResult_eq_sub (a b : Word) : subResult a b = a - b := by
  rw [subResult, trunc32_sub, trunc32_unsigned, trunc32_unsigned]

/-- Subtracting is adding the two's complement (R54). -/
theorem subResult_eq_addResult_complement (a b : Word) :
    subResult a b = addResult a (trunc32 (2 ^ 32 - unsigned b)) := by
  have hwrap : trunc32 (2 ^ 32) = 0#32 := by decide
  rw [subResult_eq_sub, addResult_eq_add, trunc32_sub, hwrap, trunc32_unsigned, BitVec.zero_sub, BitVec.sub_eq_add_neg]

/-- ADD gives the true unsigned sum exactly when that is below 2^32 (R54). -/
theorem unsigned_addResult_eq_iff (a b : Word) :
    unsigned (addResult a b) = unsigned a + unsigned b ↔ unsigned a + unsigned b < 2 ^ 32 :=
  unsigned_trunc32_eq_iff.trans (and_iff_right (add_nonneg (unsigned_bounds a).1 (unsigned_bounds b).1))

/-- SUB gives the true unsigned difference exactly when that is not negative (R54). -/
theorem unsigned_subResult_eq_iff (a b : Word) :
    unsigned (subResult a b) = unsigned a - unsigned b ↔ unsigned b ≤ unsigned a := by
  have ha := unsigned_bounds a
  have hb := unsigned_bounds b
  rw [subResult, unsigned_trunc32_eq_iff]
  omega

/-- ADD gives the true signed sum exactly when that is in range (R54). -/
theorem signed_addResult_eq_iff (a b : Word) :
    signed (addResult a b) = signed a + signed b ↔
      -(2 ^ 31) ≤ signed a + signed b ∧ signed a + signed b ≤ 2 ^ 31 - 1 := by
  rw [addResult_eq_signed, signed_trunc32_eq_iff, Int.le_sub_one_iff]

/-- SUB gives the true signed difference exactly when that is in range (R54). -/
theorem signed_subResult_eq_iff (a b : Word) :
    signed (subResult a b) = signed a - signed b ↔
      -(2 ^ 31) ≤ signed a - signed b ∧ signed a - signed b ≤ 2 ^ 31 - 1 := by
  rw [subResult_eq_signed, signed_trunc32_eq_iff, Int.le_sub_one_iff]

/-- Settles O42: the laws are those of bit vectors; the results are truncated sums and differences, exact in range. -/
theorem addSubLawsAndExactness : Obligations.AddSubLawsAndExactness := by
  intro a b c
  refine ⟨?_, ?_, ?_, subResult_eq_addResult_complement a b, ?_, ?_, ?_, unsigned_addResult_eq_iff a b,
    unsigned_subResult_eq_iff a b, signed_addResult_eq_iff a b, signed_subResult_eq_iff a b⟩ <;>
    simp only [addResult_eq_add, subResult_eq_sub]
  · exact BitVec.add_comm a b
  · exact BitVec.add_assoc a b c
  · exact BitVec.add_zero a
  · exact BitVec.add_sub_cancel a b
  · exact BitVec.sub_add_cancel a b
  · exact BitVec.sub_self a

end Sys2Proof.Machine
end

section
/-! The multiplies (R55 to R59): each is the truncated product of two halves, so what changes a half's reading by a
multiple of 2^16 changes the product by a known correction. -/

namespace Sys2Proof.Machine

/-- Settles O16: MUL's computation gives the unsigned product of the lower halves (`Config.mulLowSigned` is false), which
fits. -/
theorem mulWritesProductOfLowerHalves : Obligations.MulWritesProductOfLowerHalves := by
  intro rd rs0 rs1 s
  refine ⟨hasTTypeForm (.mul rd rs0 rs1), fun hready => ?_⟩
  obtain ⟨t, hexec, hreg, hpc⟩ := exec_writes_of_ready hready rfl
  exact ⟨t, hexec, hreg, (congrArg unsigned hreg).trans (unsigned_productUnsigned _ _), hpc⟩

/-- Settles O43: the results are stated of the halves alone. -/
theorem multipliesIgnoreOtherHalf : Obligations.MultipliesIgnoreOtherHalf := by
  refine fun signedLow a a' b b' => ⟨fun ha hb => ?_, fun ha hb => ⟨?_, ?_⟩⟩
  · rw [mulResult, mulResult, ha, hb]
  · rw [mulhResult, mulhResult, ha, hb]
  · rw [mulhuResult, mulhuResult, ha, hb]

/-- The lower half of a truncated integer is the integer modulo 2^16. -/
theorem unsigned_lowerHalf_trunc32 (z : Int) : unsigned (lowerHalf (trunc32 z)) = z % 2 ^ 16 := by
  have h : unsigned (lowerHalf (trunc32 z)) = unsigned (trunc32 z) % 2 ^ 16 := by
    simp [lowerHalf, unsigned, BitVec.extractLsb'_toNat]
  rw [h, unsigned_trunc32, Int.emod_emod_of_dvd z (by decide)]

/-- Integers that agree modulo 2^16 truncate to words with one lower half. -/
theorem lowerHalf_trunc32_congr {y z : Int} (h : y ≡ z [ZMOD 2 ^ 16]) :
    lowerHalf (trunc32 y) = lowerHalf (trunc32 z) := by
  have hu : unsigned (lowerHalf (trunc32 y)) = unsigned (lowerHalf (trunc32 z)) := by
    rw [unsigned_lowerHalf_trunc32, unsigned_lowerHalf_trunc32]
    exact h
  exact BitVec.eq_of_toNat_eq (Int.ofNat_inj.mp hu)

/-- The two products of halves agree in bits 15:0 (R56, R59). -/
theorem lowerHalf_productSigned (a b : Half) : lowerHalf (productSigned a b) = lowerHalf (productUnsigned a b) :=
  lowerHalf_trunc32_congr ((signed_modEq_unsigned a).mul (signed_modEq_unsigned b))

/-- The two readings of a vector with a clear top bit are one. -/
theorem signed_eq_unsigned {n : Nat} {v : BitVec n} (h : v.msb = false) : signed v = unsigned v :=
  BitVec.toInt_eq_toNat_of_msb h

/-- The top bit of the lower half is bit 15. -/
theorem msb_lowerHalf (a : Word) : (lowerHalf a).msb = a.getLsbD 15 := by
  simp [lowerHalf, BitVec.msb_eq_getLsbD_last]

/-- The top bit of the upper half is the word's. -/
theorem msb_upperHalf (a : Word) : (upperHalf a).msb = a.msb := by
  simp [upperHalf, BitVec.msb_eq_getLsbD_last]

/-- Settles O45: the products agree modulo 2^16, and wholly where both readings of both halves do. -/
theorem mulReadingsAgreeInLowBits : Obligations.MulReadingsAgreeInLowBits := by
  refine fun a b => ⟨lowerHalf_productSigned (lowerHalf a) (lowerHalf b), fun ha hb => ?_⟩
  rw [← msb_lowerHalf] at ha hb
  exact congrArg₂ (fun x y => trunc32 (x * y)) (signed_eq_unsigned ha) (signed_eq_unsigned hb)

/-- The signed reading of a half is the unsigned one less 2^16 where its top bit is set. -/
theorem signed_half (v : Half) : signed v = unsigned v - 2 ^ 16 * (if v.msb then 1 else 0) := by
  rw [signed, unsigned, BitVec.toInt_eq_msb_cond]
  split <;> simp

/-- What the unsigned product of the upper halves has over the signed one (R59). -/
def mulhCorrection (a b : Word) : Int :=
  2 ^ 16 * ((if a.msb then 1 else 0) * unsigned (upperHalf b) + (if b.msb then 1 else 0) * unsigned (upperHalf a))

/-- MULH is MULHU less the correction, modulo 2^32 (R59). -/
theorem mulhResult_eq_mulhuResult_sub (a b : Word) :
    mulhResult a b = trunc32 (unsigned (mulhuResult a b) - mulhCorrection a b) := by
  refine (trunc32_eq_iff _ _).mpr (Int.modEq_iff_dvd.mpr
    ⟨-((if a.msb then 1 else 0) * (if b.msb then 1 else 0)), ?_⟩)
  rw [signed_half, signed_half, msb_upperHalf, msb_upperHalf, mulhuResult, unsigned_productUnsigned, mulhCorrection]
  ring

/-- Truncating an integer less a correction changes the word exactly when 2^32 does not divide the correction. -/
theorem trunc32_sub_eq_iff (w : Word) (c : Int) : trunc32 (unsigned w - c) = w ↔ (2 ^ 32 : Int) ∣ c :=
  calc trunc32 (unsigned w - c) = w
      ↔ trunc32 (unsigned w - c) = trunc32 (unsigned w) := by rw [trunc32_unsigned]
    _ ↔ unsigned w - c ≡ unsigned w [ZMOD 2 ^ 32] := trunc32_eq_iff _ _
    _ ↔ (2 ^ 32 : Int) ∣ c := by rw [Int.modEq_iff_dvd, sub_sub_cancel]

/-- The upper half of a half moved up is the half. -/
theorem upperHalf_append_zero (v : Half) : upperHalf (v ++ 0#16) = v := BitVec.extractLsb'_append_eq_left

/-- Settles O44: the correction is `mulhCorrection`, a multiple of 2^16. -/
theorem mulhCorrectsMulhu : Obligations.MulhCorrectsMulhu := by
  intro a b
  have hcorrect := mulhResult_eq_mulhuResult_sub a b
  refine ⟨hcorrect, ?_, lowerHalf_productSigned (upperHalf a) (upperHalf b), ?_⟩
  · rw [hcorrect]
    exact trunc32_sub_eq_iff (mulhuResult a b) (mulhCorrection a b)
  · rw [mulhuResult, upperHalf_append_zero, upperHalf_append_zero]
    rfl

end Sys2Proof.Machine
end

section
/-! The divisions off their corners (R60, R64 to R67): the integer quotients and remainders of two words are readings of
words, so truncation loses nothing of them. -/

namespace Sys2Proof.Machine

/-- Two words with one signed reading are one word. -/
theorem signed_inj {v w : Word} : signed v = signed w ↔ v = w := BitVec.toInt_inj

/-- The two readings of a word are zero together. -/
theorem unsigned_eq_zero_iff (v : Word) : unsigned v = 0 ↔ signed v = 0 := by
  have hu : unsigned v = 0 ↔ v = 0#32 := Int.natCast_eq_zero.trans (BitVec.toNat_inj (y := 0#32))
  exact hu.trans (signed_inj (w := 0#32)).symm

/-- DIV's overflow pair as words (R63). -/
theorem isOverflowPair_iff (a b : Word) : IsOverflowPair a b ↔ a = 0x80000000#32 ∧ b = 0xFFFFFFFF#32 :=
  and_congr (signed_inj (w := 0x80000000#32)) (signed_inj (w := 0xFFFFFFFF#32))

/-- Off the overflow pair the signed quotient of two words is the reading of a word (R64). -/
theorem divT_signed {a b : Word} (h : ¬ IsOverflowPair a b) : divT (signed a) (signed b) = signed (a.sdiv b) := by
  rw [isOverflowPair_iff, not_and_or] at h
  rw [divT_eq_tdiv]
  exact (BitVec.toInt_sdiv_of_ne_or_ne a b h).symm

/-- The signed remainder of two words is the reading of a word (R66). -/
theorem remT_signed (a b : Word) : remT (signed a) (signed b) = signed (a.srem b) := by
  rw [remT_eq_tmod]
  exact (BitVec.toInt_srem a b).symm

/-- Off the overflow pair truncation keeps the signed quotient. -/
theorem signed_trunc32_divT {a b : Word} (h : ¬ IsOverflowPair a b) :
    signed (trunc32 (divT (signed a) (signed b))) = divT (signed a) (signed b) := by
  rw [divT_signed h, trunc32_signed]

/-- Truncation keeps the signed remainder. -/
theorem signed_trunc32_remT (a b : Word) :
    signed (trunc32 (remT (signed a) (signed b))) = remT (signed a) (signed b) := by
  rw [remT_signed, trunc32_signed]

/-- The spec's unsigned quotient is the integer quotient rounded down (R65). -/
theorem divU_unsigned (a b : Word) : divU (unsigned a) (unsigned b) = unsigned a / unsigned b :=
  Int.natCast_ediv a.toNat b.toNat

/-- The spec's unsigned remainder is the integer remainder (R67). -/
theorem remU_unsigned (a b : Word) : remU (unsigned a) (unsigned b) = unsigned a % unsigned b := by
  rw [remU, divU_unsigned, Int.emod_def]

/-- Truncation keeps the unsigned quotient. -/
theorem unsigned_trunc32_divU (a b : Word) :
    unsigned (trunc32 (divU (unsigned a) (unsigned b))) = unsigned a / unsigned b := by
  have hword : divU (unsigned a) (unsigned b) = unsigned (a / b) := congrArg Nat.cast BitVec.toNat_udiv.symm
  rw [hword, trunc32_unsigned, ← hword, divU_unsigned]

/-- Truncation keeps the unsigned remainder. -/
theorem unsigned_trunc32_remU (a b : Word) :
    unsigned (trunc32 (remU (unsigned a) (unsigned b))) = unsigned a % unsigned b := by
  have hword : unsigned a % unsigned b = unsigned (a % b) := congrArg Nat.cast BitVec.toNat_umod.symm
  rw [remU_unsigned, hword, trunc32_unsigned]

/-- Settles O19: off the corners DIV's computation is the quotient toward zero, which fits. -/
theorem divWritesSignedQuotient : Obligations.DivWritesSignedQuotient := by
  intro rd rs0 rs1 s
  refine ⟨hasTTypeForm (.div rd rs0 rs1), fun hready hzero hpair => ?_⟩
  obtain ⟨t, hexec, hreg, hpc⟩ := exec_writes_of_ready hready (divResult_of_fits hzero hpair)
  exact ⟨t, hexec, hreg, (congrArg signed hreg).trans (signed_trunc32_divT hpair), hpc⟩

/-- Settles O20: for a non-zero divisor DIVU's computation is the unsigned quotient, which fits. -/
theorem divuWritesUnsignedQuotient : Obligations.DivuWritesUnsignedQuotient := by
  intro rd rs0 rs1 s
  refine ⟨hasTTypeForm (.divu rd rs0 rs1), fun hready hzero => ?_⟩
  obtain ⟨t, hexec, hreg, hpc⟩ := exec_writes_of_ready hready (divuResult_of_ne_zero hzero)
  exact ⟨t, hexec, hreg, (congrArg unsigned hreg).trans (unsigned_trunc32_divU _ _), hpc⟩

/-- Settles O21: for a non-zero divisor MOD's computation is the remainder toward zero, which fits and is 0 at the
overflow pair. -/
theorem modWritesSignedRemainder : Obligations.ModWritesSignedRemainder := by
  intro rd rs0 rs1 s
  refine ⟨hasTTypeForm (.mod rd rs0 rs1), fun hready hzero => ?_⟩
  obtain ⟨t, hexec, hreg, hpc⟩ := exec_writes_of_ready hready (modResult_of_ne_zero hzero)
  refine ⟨t, hexec, hreg, (congrArg signed hreg).trans (signed_trunc32_remT _ _), fun ⟨ha, hb⟩ => ?_, hpc⟩
  have hrem : trunc32 (remT (-(2 ^ 31)) (-1)) = 0#32 := by decide
  rw [← hrem, ← ha, ← hb]
  exact hreg

/-- Settles O22: for a non-zero divisor MODU's computation is the unsigned remainder, which fits. -/
theorem moduWritesUnsignedRemainder : Obligations.ModuWritesUnsignedRemainder := by
  intro rd rs0 rs1 s
  refine ⟨hasTTypeForm (.modu rd rs0 rs1), fun hready hzero => ?_⟩
  obtain ⟨t, hexec, hreg, hpc⟩ := exec_writes_of_ready hready (moduResult_of_ne_zero hzero)
  exact ⟨t, hexec, hreg, (congrArg unsigned hreg).trans (unsigned_trunc32_remU _ _), hpc⟩

end Sys2Proof.Machine
end

section
/-! The corners of the divisions (R62, R63, R76): what this machine writes there, and the faults of the spec's default. -/

namespace Sys2Proof.Machine

/-- Settles O23: with a zero divisor each computation is its corner under the free-value rule. -/
theorem zeroDivisorWritesFreeValue : Obligations.ZeroDivisorWritesFreeValue := by
  intro rd rs0 rs1 s hpc h0 h1 hb
  have hsigned : signed (s.reg rs1) = 0 := by rw [hb]; decide
  have hunsigned : unsigned (s.reg rs1) = 0 := by rw [hb]; decide
  exact ⟨exec_writes_of_ready (i := .div rd rs0 rs1) ⟨hpc, h0, h1⟩ (divResult_of_zero hsigned),
    exec_writes_of_ready (i := .divu rd rs0 rs1) ⟨hpc, h0, h1⟩ (divuResult_of_zero hunsigned),
    exec_writes_of_ready (i := .mod rd rs0 rs1) ⟨hpc, h0, h1⟩ (modResult_of_zero hsigned),
    exec_writes_of_ready (i := .modu rd rs0 rs1) ⟨hpc, h0, h1⟩ (moduResult_of_zero hunsigned)⟩

/-- Settles O24: DIV is at its corner; DIVU and MODU compute 2^31 / (2^32 - 1) and 2^31 % (2^32 - 1). -/
theorem overflowPairWritesFreeValue : Obligations.OverflowPairWritesFreeValue := by
  intro rd rs0 rs1 s hpc h0 h1 ha hb
  have hpair : IsOverflowPair (s.reg rs0) (s.reg rs1) := (isOverflowPair_iff _ _).mpr ⟨ha, hb⟩
  have hdivu : divuResult Config.divZeroRule (s.reg rs0) (s.reg rs1) = .ok 0#32 := by rw [ha, hb]; decide
  have hmodu : moduResult Config.divZeroRule (s.reg rs0) (s.reg rs1) = .ok 0x80000000#32 := by rw [ha, hb]; decide
  obtain ⟨t, hexec, hreg, -⟩ := exec_writes_of_ready (i := .divu rd rs0 rs1) ⟨hpc, h0, h1⟩ hdivu
  obtain ⟨t', hexec', hreg', -⟩ := exec_writes_of_ready (i := .modu rd rs0 rs1) ⟨hpc, h0, h1⟩ hmodu
  exact ⟨exec_writes_of_ready (i := .div rd rs0 rs1) ⟨hpc, h0, h1⟩ (divResult_of_overflow hpair),
    ⟨t, hexec, hreg⟩, t', hexec', hreg'⟩

/-- A corner faults under the default rule alone, by its own name. -/
theorem cornerResult_error_iff {rule : CornerRule} {f g : Fault} {v : Word} :
    cornerResult rule f v = .error g ↔ g = f ∧ rule = .modelFault := by
  cases rule <;> simp [eq_comm]

/-- A computation whose one corner is the zero divisor faults there alone, under DIV_ZERO's default (R62). -/
theorem error_iff_of_zeroCorner {z : CornerRule} {b v w : Word} {f : Fault} {result : Except Fault Word}
    (hzero : unsigned b = 0 → result = cornerResult z .divideByZero v) (hok : unsigned b ≠ 0 → result = .ok w) :
    result = .error f ↔ f = .divideByZero ∧ z = .modelFault ∧ unsigned b = 0 := by
  by_cases hb : unsigned b = 0
  · rw [hzero hb, cornerResult_error_iff]
    tauto
  · rw [hok hb]
    simp [hb]

/-- DIV's computation faults at its two corners alone, each under its rule's default (R62, R63). -/
theorem divResult_error_iff {r : Rounding} {z o : CornerRule} {a b : Word} {f : Fault} :
    divResult r z o a b = .error f ↔
      (f = .divideByZero ∧ z = .modelFault ∧ unsigned b = 0) ∨
        (f = .divideOverflow ∧ o = .modelFault ∧ a = 0x80000000#32 ∧ b = 0xFFFFFFFF#32) := by
  rw [← isOverflowPair_iff, unsigned_eq_zero_iff]
  by_cases hb : signed b = 0
  · have hpair : ¬ IsOverflowPair a b := fun h => by rw [h.2] at hb; cases hb
    rw [divResult_of_zero hb, cornerResult_error_iff]
    tauto
  · by_cases hpair : IsOverflowPair a b
    · rw [divResult_of_overflow hpair, cornerResult_error_iff]
      tauto
    · rw [divResult_of_fits hb hpair]
      simp [hb, hpair]

/-- Settles O25: `divResult_error_iff`, and `error_iff_of_zeroCorner` for the three with one corner. -/
theorem defaultCornerRulesFault : Obligations.DefaultCornerRulesFault := by
  intro r z o a b f
  have hb := unsigned_eq_zero_iff b
  exact ⟨divResult_error_iff, error_iff_of_zeroCorner divuResult_of_zero divuResult_of_ne_zero,
    error_iff_of_zeroCorner (fun h => modResult_of_zero (hb.mp h)) (fun h => modResult_of_ne_zero (mt hb.mpr h)),
    error_iff_of_zeroCorner moduResult_of_zero moduResult_of_ne_zero⟩

end Sys2Proof.Machine
end

section
/-! The rounding conventions against each other (R68), and quotient with remainder (R69). -/

namespace Sys2Proof.Machine

/-- Where nothing is rounded, or both operands are on the positive side, every convention gives the Euclidean quotient
(R68). -/
theorem quotientBy_eq_ediv (r : Rounding) {a b : Int} (h : (0 ≤ a ∧ 0 < b) ∨ b ∣ a) : quotientBy r a b = a / b := by
  cases r with
  | towardZero => rw [quotientBy, divT_eq_tdiv, Int.tdiv_eq_ediv, if_pos (h.imp_left And.left), add_zero]
  | towardMinusInfinity =>
    rw [quotientBy, Int.fdiv_eq_ediv, if_pos (h.imp_left fun h => h.2.le), sub_zero]
  | euclidean => rfl

/-- Every convention gives the quotient rounded down or the next integer (R68). -/
theorem quotientBy_bounds (r : Rounding) {a b : Int} (hb : b ≠ 0) :
    a.fdiv b ≤ quotientBy r a b ∧ quotientBy r a b ≤ a.fdiv b + 1 := by
  by_cases hdvd : b ∣ a
  · rw [quotientBy_eq_ediv r (.inr hdvd), Int.fdiv_eq_ediv_of_dvd hdvd]
    omega
  · cases r with
    | towardZero =>
      rw [quotientBy, divT_eq_tdiv, Int.tdiv_eq_ediv, Int.fdiv_eq_ediv]
      simp only [hdvd, or_false]
      rcases lt_or_gt_of_ne hb with hneg | hpos
      · rw [Int.sign_eq_neg_one_of_neg hneg]
        split_ifs <;> omega
      · rw [Int.sign_eq_one_of_pos hpos]
        split_ifs <;> omega
    | towardMinusInfinity => exact ⟨le_rfl, Int.le_add_one le_rfl⟩
    | euclidean =>
      have hq : quotientBy .euclidean a b = a / b := rfl
      rw [hq, Int.fdiv_eq_ediv]
      split_ifs <;> omega

/-- The readings of a word that is not negative are one. -/
theorem signed_eq_unsigned_of_nonneg {v : Word} (h : 0 ≤ signed v) : signed v = unsigned v :=
  signed_eq_unsigned (by rw [BitVec.msb_eq_toInt]; exact decide_eq_false (not_lt.mpr h))

/-- For a non-negative dividend and a positive divisor the signed quotient is the unsigned one (R68). -/
theorem quotientBy_signed_eq_divU (r : Rounding) {a b : Word} (ha : 0 ≤ signed a) (hb : 0 < signed b) :
    quotientBy r (signed a) (signed b) = divU (unsigned a) (unsigned b) := by
  rw [quotientBy_eq_ediv r (.inl ⟨ha, hb⟩), divU_unsigned, signed_eq_unsigned_of_nonneg ha,
    signed_eq_unsigned_of_nonneg hb.le]

/-- Settles O46: the conventions are within one of each other, and the Euclidean quotient where they agree. -/
theorem roundingConventionsAgreeOnDomain : Obligations.RoundingConventionsAgreeOnDomain := by
  refine ⟨fun r r' a b hb => ⟨fun h => ?_, ?_⟩, fun r z o a b ha hb => ?_⟩
  · have hq : quotientBy r a b = quotientBy r' a b := (quotientBy_eq_ediv r h).trans (quotientBy_eq_ediv r' h).symm
    exact ⟨hq, by rw [remainderBy, remainderBy, hq]⟩
  · obtain ⟨hlow, hhigh⟩ := quotientBy_bounds r hb (a := a)
    obtain ⟨hlow', hhigh'⟩ := quotientBy_bounds r' hb (a := a)
    rw [abs_le]
    omega
  · have hpair : ¬ IsOverflowPair a b := fun h => by rw [h.1] at ha; omega
    have hzero : unsigned b ≠ 0 := mt (unsigned_eq_zero_iff b).mp hb.ne'
    rw [divResult_of_fits hb.ne' hpair, divuResult_of_ne_zero hzero, modResult_of_ne_zero hb.ne',
      moduResult_of_ne_zero hzero, remainderBy, remU, quotientBy_signed_eq_divU r ha hb,
      signed_eq_unsigned_of_nonneg ha, signed_eq_unsigned_of_nonneg hb.le]
    exact ⟨rfl, rfl⟩

/-- The remainder toward zero is smaller than the divisor in size (R69). -/
theorem abs_remT_lt {a b : Int} (hb : b ≠ 0) : |remT a b| < |b| := by
  rw [remT_eq_tmod, Int.abs_eq_natAbs, Int.abs_eq_natAbs, Int.natAbs_tmod]
  exact_mod_cast Nat.mod_lt _ (Int.natAbs_pos.mpr hb)

/-- A non-zero remainder toward zero takes the dividend's sign (R69). -/
theorem sign_remT {a b : Int} (h : remT a b ≠ 0) : (remT a b).sign = a.sign := by
  rw [remT_eq_tmod] at h ⊢
  rw [Int.sign_tmod, if_neg fun hdvd => h (Int.tmod_eq_zero_of_dvd hdvd)]

/-- Settles O47: the words hold the integer quotient and remainder exactly, and those rebuild the dividend. -/
theorem quotientAndRemainderRebuildDividend : Obligations.QuotientAndRemainderRebuildDividend := by
  intro a b q r hb
  have hsigned : signed b ≠ 0 := mt (signed_inj (w := 0#32)).mp hb
  have hunsigned : unsigned b ≠ 0 := mt (unsigned_eq_zero_iff b).mp hsigned
  refine ⟨fun hpair hq hr => ?_, fun hq hr => ?_⟩
  · rw [divResult_of_fits hsigned hpair] at hq
    rw [modResult_of_ne_zero hsigned] at hr
    have hq' : signed q = divT (signed a) (signed b) := by cases hq; exact signed_trunc32_divT hpair
    have hr' : signed r = remT (signed a) (signed b) := by cases hr; exact signed_trunc32_remT a b
    rw [hq', hr']
    refine ⟨?_, abs_remT_lt hsigned, sign_remT⟩
    rw [remT, add_sub_cancel, trunc32_signed]
  · rw [divuResult_of_ne_zero hunsigned] at hq
    rw [moduResult_of_ne_zero hunsigned] at hr
    have hq' : unsigned q = unsigned a / unsigned b := by cases hq; exact unsigned_trunc32_divU a b
    have hr' : unsigned r = unsigned a % unsigned b := by cases hr; exact unsigned_trunc32_remU a b
    rw [hq', hr']
    have hpos : 0 < unsigned b := (unsigned_bounds b).1.lt_of_ne' hunsigned
    exact ⟨(Int.mul_ediv_add_emod _ _).symm, Int.emod_nonneg _ hunsigned, Int.emod_lt_of_pos _ hpos⟩

end Sys2Proof.Machine
end
